-- ==== Sys2Proof/Word.lean ====
section
/-! DEFINITION. The machine's word, byte and register-address types (00_scope.md R7, R8). -/

namespace Sys2Proof

/-- A 32-bit value: a register, an address, an instruction word (XLEN = ILEN = 32, R7). -/
abbrev Word := BitVec 32

/-- One byte of a memory word. -/
abbrev Byte := BitVec 8

/-- A 5-bit unsigned register address (R21). -/
abbrev RegAddr := BitVec 5

end Sys2Proof
end

