-- ==== Sys2Proof/Config.lean ====
section
/-! DEFINITION. The parameters of 00_scope.md R7: what an implementation fixes. No value here is free. -/

namespace Sys2Proof

/-- The read latency of a memory (D2, U3).
The one-cycle-synchronous option of the source is refused by the spec (it does not say how the pipeline would
absorb it), so it is no value of this type (log 8). -/
inductive ReadLatency where
  /-- The word is available in the cycle of its address. -/
  | combinational
  deriving DecidableEq, Repr

/-- The memory capacities in words, IMEM_WORDS and DMEM_WORDS: parameters "with 1024 as its value" (R7, D10, U5). A state
carries them (`State.params`), so that a statement about every state holds for every capacity (log 15). -/
structure Params where
  imemWords : Nat := 1024
  dmemWords : Nat := 1024
  deriving DecidableEq, Repr

/-- The capacities of R7's table. -/
def Config.params : Params where

/-- IMEM_LATENCY (R7, R51, D2). -/
def Config.imemLatency : ReadLatency := .combinational

/-- DMEM_LATENCY (R7, R53, D2). -/
def Config.dmemLatency : ReadLatency := .combinational

/-- RESET_PC (R7, R43, D1; log 6). -/
def Config.resetPc : Word := 0x00000000#32

/-- DRAIN: the cycles from the stop cycle to the end state (R7, R333, D15; log 10). -/
def Config.drain : Nat := 4

/-- What an address that a memory does not list reads as.
For the instruction memory this is the zero fill of R59 (D11).
For the data memory the spec leaves the initial contents to the run (`DMEM_INIT`, D12): a run with other contents
lists them; that reset lists nothing is the model's choice (DESIGN CHOICE, unsafe, log 1). -/
def Config.unlistedByte : Byte := 0x00#8

end Sys2Proof
end

