-- ==== Sys2Proof/Syntax.lean ====
section
/-! DEFINITION. The 24 instructions of spec/opcode_table.json (00_scope.md R2), one constructor a row, in the
table's order. Operands are the fields the decoder reads (30_encoding.md R81 to R87). -/

namespace Sys2Proof

/-- An instruction of the CORE.

* `rd`, `rs1`, `rs2` are 5-bit register addresses.
* `imm` is the 12-bit I- or S-immediate before sign extension (R83, R84).
* `funct7`, `shamt` of the shift-immediates are `w[31:25]` and `w[24:20]`. Only bit 30 of the word selects the
  operation (R95), but the whole 12-bit immediate is latched in ID/EX, so the term keeps `funct7`
  (DEDUCED, safe, log 14).
* `offset` is the 13-bit B-offset or the 21-bit J-offset, bit 0 included (R85, R87).
* `imm20` is `w[31:12]` (R86). -/
inductive Instr where
  | add (rd rs1 rs2 : RegAddr)
  | sub (rd rs1 rs2 : RegAddr)
  | sll (rd rs1 rs2 : RegAddr)
  | slt (rd rs1 rs2 : RegAddr)
  | xor (rd rs1 rs2 : RegAddr)
  | srl (rd rs1 rs2 : RegAddr)
  | sra (rd rs1 rs2 : RegAddr)
  | or (rd rs1 rs2 : RegAddr)
  | and (rd rs1 rs2 : RegAddr)
  | addi (rd rs1 : RegAddr) (imm : BitVec 12)
  | slti (rd rs1 : RegAddr) (imm : BitVec 12)
  | slli (rd rs1 : RegAddr) (funct7 : BitVec 7) (shamt : BitVec 5)
  | srli (rd rs1 : RegAddr) (funct7 : BitVec 7) (shamt : BitVec 5)
  | srai (rd rs1 : RegAddr) (funct7 : BitVec 7) (shamt : BitVec 5)
  | lw (rd rs1 : RegAddr) (imm : BitVec 12)
  | sw (rs2 rs1 : RegAddr) (imm : BitVec 12)
  | beq (rs1 rs2 : RegAddr) (offset : BitVec 13)
  | bne (rs1 rs2 : RegAddr) (offset : BitVec 13)
  | blt (rs1 rs2 : RegAddr) (offset : BitVec 13)
  | bge (rs1 rs2 : RegAddr) (offset : BitVec 13)
  | jal (rd : RegAddr) (offset : BitVec 21)
  | jalr (rd rs1 : RegAddr) (imm : BitVec 12)
  | lui (rd : RegAddr) (imm20 : BitVec 20)
  | auipc (rd : RegAddr) (imm20 : BitVec 20)
  deriving DecidableEq, Repr

/-- The row of spec/opcode_table.json an instruction belongs to. -/
def Instr.mnemonic : Instr → String
  | .add .. => "ADD"
  | .sub .. => "SUB"
  | .sll .. => "SLL"
  | .slt .. => "SLT"
  | .xor .. => "XOR"
  | .srl .. => "SRL"
  | .sra .. => "SRA"
  | .or .. => "OR"
  | .and .. => "AND"
  | .addi .. => "ADDI"
  | .slti .. => "SLTI"
  | .slli .. => "SLLI"
  | .srli .. => "SRLI"
  | .srai .. => "SRAI"
  | .lw .. => "LW"
  | .sw .. => "SW"
  | .beq .. => "BEQ"
  | .bne .. => "BNE"
  | .blt .. => "BLT"
  | .bge .. => "BGE"
  | .jal .. => "JAL"
  | .jalr .. => "JALR"
  | .lui .. => "LUI"
  | .auipc .. => "AUIPC"

end Sys2Proof
end

