-- ==== Sys2Proof/Machine/State.lean ====
section
/-! DEFINITION. The state of the CORE (10_state.md R20 to R43) with its two memories (20_memory.md R50), the reasons a
cycle has no next state, and the state after reset (70_reset_and_hazards.md R330). -/

namespace Sys2Proof.Machine

/-- The closed enumeration of ALU operations (R30). No numeric encoding is observable (U14; log 20). -/
inductive AluOp where
  | nop | add | sub | and | or | xor | slt | sll | srl | sra
  | lui | auipc | beq | bne | blt | bge | jal | jalr
  deriving DecidableEq, Repr

/-- The control bundle (R30). A field that is not named when a bundle is written is false, and aluOp is NOP. -/
structure ControlSignals where
  regWrite : Bool := false
  memRead : Bool := false
  memWrite : Bool := false
  aluSrcImmediate : Bool := false
  branch : Bool := false
  jump : Bool := false
  memToReg : Bool := false
  aluOp : AluOp := .nop
  deriving DecidableEq, Repr

/-- The all-false bundle with aluOp NOP: "All-false/NOP encodes a pipeline bubble" (R30). -/
def ControlSignals.off : ControlSignals := {}

/-- The IF/ID register (R31): the address and the word fetched in the previous cycle. -/
structure IfId where
  pc : Word
  inst : Word
  deriving DecidableEq, Repr

/-- The ID/EX register (R32). -/
structure IdEx where
  pc : Word
  rs1Data : Word
  rs2Data : Word
  imm : Word
  rs1 : RegAddr
  rs2 : RegAddr
  rd : RegAddr
  ctrl : ControlSignals
  deriving DecidableEq, Repr

/-- The EX/MEM register (R33). `aluResult` is the data address of a load or store, `rs2Data` the store data. -/
structure ExMem where
  pc : Word
  aluResult : Word
  rs2Data : Word
  rdAddr : RegAddr
  ctrl : ControlSignals
  deriving DecidableEq, Repr

/-- The MEM/WB register (R34). `memData` is the word a load read. -/
structure MemWb where
  pc : Word
  aluResult : Word
  memData : Word
  rdAddr : RegAddr
  ctrl : ControlSignals
  deriving DecidableEq, Repr

/-- The bubble of IF/ID (R35). -/
def IfId.bubble : IfId := ⟨0#32, 0#32⟩
/-- The bubble of ID/EX (R35). -/
def IdEx.bubble : IdEx := ⟨0#32, 0#32, 0#32, 0#32, 0#5, 0#5, 0#5, .off⟩
/-- The bubble of EX/MEM (R35). -/
def ExMem.bubble : ExMem := ⟨0#32, 0#32, 0#32, 0#5, .off⟩
/-- The bubble of MEM/WB (R35). -/
def MemWb.bubble : MemWb := ⟨0#32, 0#32, 0#32, 0#5, .off⟩

/-- The stored register file X[0] .. X[31] (R20, R21). -/
abbrev RegFile := Vector Word 32

/-- The contents of one memory: (byte address, byte) pairs in the canonical form of `Memory.wf` (Machine/Ops.lean).
Word `i` of the memory is the four bytes from address `4 * i`, least significant first; no access of the CORE is
narrower than a word, so the order is not observable (R58, R60; PRESUMED, safe, log 2). -/
abbrev Memory := List Host.Cell

/-- The whole state: the record S of R20, the data memory, and what is fixed for a run: the instruction memory and the
capacities of the two memories. -/
structure State where
  /-- The byte address of the instruction being fetched (R27). -/
  pc : Word
  /-- The stored registers (R21). -/
  x : RegFile
  ifid : IfId
  idex : IdEx
  exmem : ExMem
  memwb : MemWb
  /-- The instruction memory IMEM (R50, R52). -/
  imem : Memory
  /-- The data memory DMEM (R50). -/
  dmem : Memory
  /-- IMEM_WORDS and DMEM_WORDS (R7, D10): no cycle and no reset changes them. -/
  params : Params
  deriving DecidableEq, Repr

/-- What an access is made for (R56). -/
inductive AccessKind where
  | fetch
  | load
  | store
  deriving DecidableEq, Repr

/-- One out-of-range access: its kind and the 32-bit byte address presented (R56). -/
structure Access where
  kind : AccessKind
  addr : Word
  deriving DecidableEq, Repr

/-- Why a cycle has no next state. -/
inductive Fault where
  /-- `fault OutOfRange(kind, addr)` of R56: raised by a cycle, whichever instruction it runs, in which a fetch, load or
  store has a word index at or above the capacity of its memory. Every such access of the cycle is listed, load, store,
  fetch in that order (R271: "the model records each of them"; log 5). Safe: the spec gives the cycle no meaning
  (D9, U1, U2), so the machine stops where a real memory would do something unknown. -/
  | outOfRange (accesses : List Access)
  deriving DecidableEq, Repr

/-- Why an instruction has no meaning. -/
inductive Refusal where
  /-- The instruction of that mnemonic is not modelled: raised by an arm of `exec` alone. Safe. No arm raises it. -/
  | notModelled (mnemonic : String)
  deriving DecidableEq, Repr

/-- The state S_0 of R330 (R41 to R43), both memories with nothing listed: a run's image and data are placed before
reset (R332), see `State.boot`. The capacities are those of R7's table. That the data memory then reads as zero is the model's choice (DESIGN CHOICE, unsafe,
log 1). -/
def State.reset : State where
  pc := Config.resetPc
  x := Vector.replicate 32 0#32
  ifid := .bubble
  idex := .bubble
  exmem := .bubble
  memwb := .bubble
  imem := []
  dmem := []
  params := Config.params

end Sys2Proof.Machine
end

