-- ==== Sys2Proof/Machine/Flags.lean ====
section
/-! DEFINITION. The CORE has no status flags (10_state.md R38): every operation wraps and none reports carry or overflow
(40_integer_register.md R132). What a flag would be used for is computed in the instruction that tests it: the
comparisons below (43_branch.md R181 to R184, 40_integer_register.md R126). -/

namespace Sys2Proof.Machine

/-- `a <s b` (R9): the comparison of SLT, SLTI and BLT. -/
def signedLess (a b : Word) : Bool := decide (a.toInt < b.toInt)

/-- `a >=s b` (R9): the comparison of BGE. -/
def signedGreaterEq (a b : Word) : Bool := decide (b.toInt ≤ a.toInt)

/-- All 32 bits equal: the comparison of BEQ (R181). -/
def wordsEqual (a b : Word) : Bool := a == b

/-- Some bit differs: the comparison of BNE (R182). -/
def wordsDiffer (a b : Word) : Bool := a != b

end Sys2Proof.Machine
end

