-- ==== Sys2Proof/Machine/Alu.lean ====
section
/-! DEFINITION. The ALU and branch unit (40_integer_register.md R120): one pure function, one arm per aluOp, each from
the rule of the instruction that selects it. -/

namespace Sys2Proof.Machine

/-- The outputs of the ALU; "an output that rule does not name is 0" (R120). -/
structure AluOut where
  result : Word := 0#32
  branchTaken : Bool := false
  branchTarget : Word := 0#32
  deriving DecidableEq, Repr

/-- "SLL/SRL/SRA shift by the low 5 bits of src2" (R125). -/
def shiftAmount (v : Word) : Nat := (v.extractLsb' 0 5).toNat

/-- A truth value as a 32-bit 1 or 0 (R126). -/
def boolWord (b : Bool) : Word := if b then 1#32 else 0#32

/-- A JALR target: "(src1+imm) with bit 0 cleared" (R202). -/
def clearBit0 (v : Word) : Word := v &&& 0xFFFFFFFE#32

/-- The ALU (R120): src1, src2, pc, imm and aluOp to result, branchTaken and branchTarget. -/
def alu (op : AluOp) (src1 src2 pc imm : Word) : AluOut :=
  match op with
  | .nop => {}                                                                              -- R240
  | .add => { result := src1 + src2 }                                                       -- R123
  | .sub => { result := src1 - src2 }                                                       -- R124
  | .and => { result := src1 &&& src2 }                                                     -- R131
  | .or => { result := src1 ||| src2 }                                                      -- R130
  | .xor => { result := src1 ^^^ src2 }                                                     -- R127
  | .slt => { result := boolWord (signedLess src1 src2) }                                   -- R126
  | .sll => { result := src1 <<< shiftAmount src2 }                                         -- R125
  | .srl => { result := src1 >>> shiftAmount src2 }                                         -- R128
  | .sra => { result := src1.sshiftRight (shiftAmount src2) }                               -- R129
  | .lui => { result := imm }                                                               -- R220
  | .auipc => { result := pc + imm }                                                        -- R221
  | .beq => { branchTaken := wordsEqual src1 src2, branchTarget := pc + imm }               -- R181
  | .bne => { branchTaken := wordsDiffer src1 src2, branchTarget := pc + imm }              -- R182
  | .blt => { branchTaken := signedLess src1 src2, branchTarget := pc + imm }               -- R183
  | .bge => { branchTaken := signedGreaterEq src1 src2, branchTarget := pc + imm }          -- R184
  | .jal => { result := pc + 4#32, branchTaken := true, branchTarget := pc + imm }          -- R201
  | .jalr => { result := pc + 4#32, branchTaken := true, branchTarget := clearBit0 (src1 + imm) }  -- R202

end Sys2Proof.Machine
end

