-- ==== Sys2Proof/WellFormed.lean ====
section
/-! DEFINITION. Which instruction terms some word encodes: the checks the operand types do not already make. -/

namespace Sys2Proof

/-- Why no word encodes an instruction term. -/
inductive IllFormed where
  /-- A branch or JAL offset with bit 0 set: the encodings of R85 and R87 have bit 0 fixed to 0. -/
  | oddOffset
  /-- An SRLI term whose funct7 has the bit of w[30] set: that word is an SRAI (R95). -/
  | srliWithBit30
  /-- An SRAI term whose funct7 has the bit of w[30] clear: that word is an SRLI (R95). -/
  | sraiWithoutBit30
  deriving DecidableEq, Repr

/-- The first check an instruction term fails, if any. Bit 5 of funct7 is bit 30 of the word. -/
def Instr.illFormed : Instr → Option IllFormed
  | .add .. | .sub .. | .sll .. | .slt .. | .xor .. | .srl .. | .sra .. | .or .. | .and .. => none
  | .addi .. | .slti .. | .slli .. => none
  | .srli _ _ funct7 _ => if funct7.getLsbD 5 then some .srliWithBit30 else none
  | .srai _ _ funct7 _ => if funct7.getLsbD 5 then none else some .sraiWithoutBit30
  | .lw .. | .sw .. => none
  | .beq _ _ offset | .bne _ _ offset | .blt _ _ offset | .bge _ _ offset =>
    if offset.getLsbD 0 then some .oddOffset else none
  | .jal _ offset => if offset.getLsbD 0 then some .oddOffset else none
  | .jalr .. | .lui .. | .auipc .. => none

/-- An instruction term is well formed when it fails no check: exactly these are the terms that words decode to. -/
abbrev Instr.WellFormed (i : Instr) : Prop := i.illFormed = none

end Sys2Proof
end

