-- ==== Sys2Proof/Decode.lean ====
section
/-! DEFINITION. The instruction word: its fields and immediates (30_encoding.md R81 to R87), the decoder from words to
instructions (R89 to R96), the opcode table, and the encoder. The numeric opcode and funct3 values and the placement of
the immediate bits are the spec's own, supplied there from general knowledge (93_implementation_defined.md G1 to G3;
PRESUMED, unsafe, log 12). -/

namespace Sys2Proof

/-! ### Fields of the word (R81) -/

/-- `w[6:0]`. -/
def opcodeField (w : Word) : BitVec 7 := w.extractLsb' 0 7
/-- `w[11:7]`, extracted from every word whatever its format. -/
def rdField (w : Word) : RegAddr := w.extractLsb' 7 5
/-- `w[14:12]`. -/
def funct3Field (w : Word) : BitVec 3 := w.extractLsb' 12 3
/-- `w[19:15]`, extracted from every word whatever its format. -/
def rs1Field (w : Word) : RegAddr := w.extractLsb' 15 5
/-- `w[24:20]`, extracted from every word whatever its format. -/
def rs2Field (w : Word) : RegAddr := w.extractLsb' 20 5
/-- `w[31:25]`. -/
def funct7Field (w : Word) : BitVec 7 := w.extractLsb' 25 7
/-- `w[30]`, the one funct7 bit the decoder examines (R94, R95). -/
def bit30 (w : Word) : Bool := w.getLsbD 30

/-- `w[31:20]`, the 12 bits of the I-immediate (R83). -/
def immIField (w : Word) : BitVec 12 := w.extractLsb' 20 12
/-- `{w[31:25], w[11:7]}`, the 12 bits of the S-immediate (R84). -/
def immSField (w : Word) : BitVec 12 := w.extractLsb' 25 7 ++ w.extractLsb' 7 5
/-- `{w[31], w[7], w[30:25], w[11:8], 0}`, the 13 bits of the B-immediate (R85). -/
def immBField (w : Word) : BitVec 13 :=
  w.extractLsb' 31 1 ++ w.extractLsb' 7 1 ++ w.extractLsb' 25 6 ++ w.extractLsb' 8 4 ++ 0b0#1
/-- `w[31:12]`, the 20 bits of the U-immediate (R86). -/
def immUField (w : Word) : BitVec 20 := w.extractLsb' 12 20
/-- `{w[31], w[19:12], w[20], w[30:21], 0}`, the 21 bits of the J-immediate (R87). -/
def immJField (w : Word) : BitVec 21 :=
  w.extractLsb' 31 1 ++ w.extractLsb' 12 8 ++ w.extractLsb' 20 1 ++ w.extractLsb' 21 10 ++ 0b0#1

/-! ### Immediates in their final 32-bit form (R83 to R87) -/

/-- `sext_12`. -/
def sext12 (v : BitVec 12) : Word := v.signExtend 32
/-- `sext_13`. -/
def sext13 (v : BitVec 13) : Word := v.signExtend 32
/-- `sext_21`. -/
def sext21 (v : BitVec 21) : Word := v.signExtend 32
/-- `{v, 12'b0}`: the upper immediate, already shifted (R86). -/
def upper20 (v : BitVec 20) : Word := v ++ 0x000#12

/-- I-immediate (R83). -/
def immI (w : Word) : Word := sext12 (immIField w)
/-- S-immediate (R84). -/
def immS (w : Word) : Word := sext12 (immSField w)
/-- B-immediate (R85). -/
def immB (w : Word) : Word := sext13 (immBField w)
/-- U-immediate (R86). -/
def immU (w : Word) : Word := upper20 (immUField w)
/-- J-immediate (R87). -/
def immJ (w : Word) : Word := sext21 (immJField w)

/-! ### Opcodes (R90) -/

def opLoad : BitVec 7 := 0b0000011#7
def opIAlu : BitVec 7 := 0b0010011#7
def opAuipc : BitVec 7 := 0b0010111#7
def opStore : BitVec 7 := 0b0100011#7
def opRType : BitVec 7 := 0b0110011#7
def opLui : BitVec 7 := 0b0110111#7
def opBranch : BitVec 7 := 0b1100011#7
def opJalr : BitVec 7 := 0b1100111#7
def opJal : BitVec 7 := 0b1101111#7

/-! ### The decoder -/

/-- Why the decoder gives a word no row of the table. The CORE does not trap on such a word: it executes as the
no-op of 46_no_operation.md R240. -/
inductive Reject where
  /-- The opcode is none of the nine of R90. -/
  | unrecognisedOpcode (opcode : BitVec 7)
  /-- A recognised R-type, I-ALU or BRANCH opcode whose funct3 selects no operation (R89, R94 to R96). -/
  | unsupportedFunct3 (opcode : BitVec 7) (funct3 : BitVec 3)
  /-- Fewer than the four bytes of one word were given to `decodeBytes`. -/
  | truncated
  deriving DecidableEq, Repr

/-- R-type operation select (R94). -/
def decodeRType (w : Word) : Except Reject Instr :=
  let f3 := funct3Field w
  let rd := rdField w
  let rs1 := rs1Field w
  let rs2 := rs2Field w
  if f3 = 0b000#3 then .ok (if bit30 w then .sub rd rs1 rs2 else .add rd rs1 rs2)
  else if f3 = 0b001#3 then .ok (.sll rd rs1 rs2)
  else if f3 = 0b010#3 then .ok (.slt rd rs1 rs2)
  else if f3 = 0b100#3 then .ok (.xor rd rs1 rs2)
  else if f3 = 0b101#3 then .ok (if bit30 w then .sra rd rs1 rs2 else .srl rd rs1 rs2)
  else if f3 = 0b110#3 then .ok (.or rd rs1 rs2)
  else if f3 = 0b111#3 then .ok (.and rd rs1 rs2)
  else .error (.unsupportedFunct3 (opcodeField w) f3)

/-- I-ALU operation select (R95). -/
def decodeIAlu (w : Word) : Except Reject Instr :=
  let f3 := funct3Field w
  let rd := rdField w
  let rs1 := rs1Field w
  if f3 = 0b000#3 then .ok (.addi rd rs1 (immIField w))
  else if f3 = 0b001#3 then .ok (.slli rd rs1 (funct7Field w) (rs2Field w))
  else if f3 = 0b010#3 then .ok (.slti rd rs1 (immIField w))
  else if f3 = 0b101#3 then
    .ok (if bit30 w then .srai rd rs1 (funct7Field w) (rs2Field w)
      else .srli rd rs1 (funct7Field w) (rs2Field w))
  else .error (.unsupportedFunct3 (opcodeField w) f3)

/-- BRANCH operation select (R96). -/
def decodeBranch (w : Word) : Except Reject Instr :=
  let f3 := funct3Field w
  let rs1 := rs1Field w
  let rs2 := rs2Field w
  if f3 = 0b000#3 then .ok (.beq rs1 rs2 (immBField w))
  else if f3 = 0b001#3 then .ok (.bne rs1 rs2 (immBField w))
  else if f3 = 0b100#3 then .ok (.blt rs1 rs2 (immBField w))
  else if f3 = 0b101#3 then .ok (.bge rs1 rs2 (immBField w))
  else .error (.unsupportedFunct3 (opcodeField w) f3)

/-- The instruction a word is, by its opcode (R90); funct3 is not examined for LOAD, STORE, JAL, JALR, LUI and
AUIPC (R93). -/
def decodeWord (w : Word) : Except Reject Instr :=
  let op := opcodeField w
  if op = opRType then decodeRType w
  else if op = opIAlu then decodeIAlu w
  else if op = opLoad then .ok (.lw (rdField w) (rs1Field w) (immIField w))
  else if op = opStore then .ok (.sw (rs2Field w) (rs1Field w) (immSField w))
  else if op = opBranch then decodeBranch w
  else if op = opJal then .ok (.jal (rdField w) (immJField w))
  else if op = opJalr then .ok (.jalr (rdField w) (rs1Field w) (immIField w))
  else if op = opLui then .ok (.lui (rdField w) (immUField w))
  else if op = opAuipc then .ok (.auipc (rdField w) (immUField w))
  else .error (.unrecognisedOpcode op)

/-- Four bytes as one word, the byte at the lowest address the least significant: the order a loader uses
(R60, D13; PRESUMED, safe, log 2). -/
def wordOfBytes (b0 b1 b2 b3 : Byte) : Word := b3 ++ b2 ++ b1 ++ b0

/-- Byte `k` (0 to 3) of a word in that order. -/
def byteOfWord (w : Word) (k : Nat) : Byte := w.extractLsb' (8 * k) 8

/-- The instruction at the head of a list of bytes and the bytes after it: every instruction is one word (R80). -/
def decodeBytes : List Byte → Except Reject (Instr × List Byte)
  | b0 :: b1 :: b2 :: b3 :: rest =>
    match decodeWord (wordOfBytes b0 b1 b2 b3) with
    | .ok i => .ok (i, rest)
    | .error r => .error r
  | _ => .error .truncated

/-- The instruction the decoder reads from an instruction whose bits are `w`, numbered as spec/opcode_table.json
numbers them; every bit above `nbits` is 0. The word is laid out as its four bytes and given to the decoder. -/
def decodeTableWord (nbits w : Nat) : Option Instr :=
  let word : Word := BitVec.ofNat 32 (w % 2 ^ nbits)
  match decodeBytes [byteOfWord word 0, byteOfWord word 1, byteOfWord word 2, byteOfWord word 3] with
  | .ok (i, _) => some i
  | .error _ => none

/-! ### The opcode table -/

/-- One row of spec/opcode_table.json: a word `w` is the row's instruction when `w &&& mask = pattern`. -/
structure TableRow where
  mnemonic : String
  pattern : Word
  mask : Word
  deriving DecidableEq, Repr

def opcodeTableRegReg : List TableRow :=
  [⟨"ADD", 0x00000033#32, 0x4000707F#32⟩,
   ⟨"SUB", 0x40000033#32, 0x4000707F#32⟩,
   ⟨"SLL", 0x00001033#32, 0x0000707F#32⟩,
   ⟨"SLT", 0x00002033#32, 0x0000707F#32⟩,
   ⟨"XOR", 0x00004033#32, 0x0000707F#32⟩,
   ⟨"SRL", 0x00005033#32, 0x4000707F#32⟩,
   ⟨"SRA", 0x40005033#32, 0x4000707F#32⟩,
   ⟨"OR", 0x00006033#32, 0x0000707F#32⟩,
   ⟨"AND", 0x00007033#32, 0x0000707F#32⟩]

def opcodeTableRegImm : List TableRow :=
  [⟨"ADDI", 0x00000013#32, 0x0000707F#32⟩,
   ⟨"SLTI", 0x00002013#32, 0x0000707F#32⟩,
   ⟨"SLLI", 0x00001013#32, 0x0000707F#32⟩,
   ⟨"SRLI", 0x00005013#32, 0x4000707F#32⟩,
   ⟨"SRAI", 0x40005013#32, 0x4000707F#32⟩]

def opcodeTableOther : List TableRow :=
  [⟨"LW", 0x00000003#32, 0x0000007F#32⟩,
   ⟨"SW", 0x00000023#32, 0x0000007F#32⟩,
   ⟨"BEQ", 0x00000063#32, 0x0000707F#32⟩,
   ⟨"BNE", 0x00001063#32, 0x0000707F#32⟩,
   ⟨"BLT", 0x00004063#32, 0x0000707F#32⟩,
   ⟨"BGE", 0x00005063#32, 0x0000707F#32⟩,
   ⟨"JAL", 0x0000006F#32, 0x0000007F#32⟩,
   ⟨"JALR", 0x00000067#32, 0x0000007F#32⟩,
   ⟨"LUI", 0x00000037#32, 0x0000007F#32⟩,
   ⟨"AUIPC", 0x00000017#32, 0x0000007F#32⟩]

/-- spec/opcode_table.json, row by row: an independent reading of the encodings that the decoder is compared with. -/
def opcodeTable : List TableRow := opcodeTableRegReg ++ opcodeTableRegImm ++ opcodeTableOther

/-- A word belongs to a row. -/
def TableRow.matchesWord (row : TableRow) (w : Word) : Bool := w &&& row.mask == row.pattern

/-! ### The encoder -/

/-- R-type layout (R82). -/
def encodeR (funct7 : BitVec 7) (rs2 rs1 : RegAddr) (funct3 : BitVec 3) (rd : RegAddr) (op : BitVec 7) : Word :=
  funct7 ++ rs2 ++ rs1 ++ funct3 ++ rd ++ op

/-- I-type layout (R82). -/
def encodeI (imm : BitVec 12) (rs1 : RegAddr) (funct3 : BitVec 3) (rd : RegAddr) (op : BitVec 7) : Word :=
  imm ++ rs1 ++ funct3 ++ rd ++ op

/-- S-type layout (R82). -/
def encodeS (imm : BitVec 12) (rs2 rs1 : RegAddr) (funct3 : BitVec 3) (op : BitVec 7) : Word :=
  imm.extractLsb' 5 7 ++ rs2 ++ rs1 ++ funct3 ++ imm.extractLsb' 0 5 ++ op

/-- B-type layout (R82): bit 0 of the offset has no place in the word. -/
def encodeB (offset : BitVec 13) (rs2 rs1 : RegAddr) (funct3 : BitVec 3) (op : BitVec 7) : Word :=
  offset.extractLsb' 12 1 ++ offset.extractLsb' 5 6 ++ rs2 ++ rs1 ++ funct3 ++ offset.extractLsb' 1 4 ++
    offset.extractLsb' 11 1 ++ op

/-- U-type layout (R82). -/
def encodeU (imm20 : BitVec 20) (rd : RegAddr) (op : BitVec 7) : Word := imm20 ++ rd ++ op

/-- J-type layout (R82): bit 0 of the offset has no place in the word. -/
def encodeJ (offset : BitVec 21) (rd : RegAddr) (op : BitVec 7) : Word :=
  offset.extractLsb' 20 1 ++ offset.extractLsb' 1 10 ++ offset.extractLsb' 11 1 ++ offset.extractLsb' 12 8 ++ rd ++ op

/-- The word of an instruction. Bits the decoder ignores take the RV32I values that the examples of the spec show:
funct7 0 or 0100000 for R-type, funct3 010 for LW and SW, 000 for JALR (DESIGN CHOICE, safe, log 13). -/
def encode : Instr → Word
  | .add rd rs1 rs2 => encodeR 0b0000000#7 rs2 rs1 0b000#3 rd opRType
  | .sub rd rs1 rs2 => encodeR 0b0100000#7 rs2 rs1 0b000#3 rd opRType
  | .sll rd rs1 rs2 => encodeR 0b0000000#7 rs2 rs1 0b001#3 rd opRType
  | .slt rd rs1 rs2 => encodeR 0b0000000#7 rs2 rs1 0b010#3 rd opRType
  | .xor rd rs1 rs2 => encodeR 0b0000000#7 rs2 rs1 0b100#3 rd opRType
  | .srl rd rs1 rs2 => encodeR 0b0000000#7 rs2 rs1 0b101#3 rd opRType
  | .sra rd rs1 rs2 => encodeR 0b0100000#7 rs2 rs1 0b101#3 rd opRType
  | .or rd rs1 rs2 => encodeR 0b0000000#7 rs2 rs1 0b110#3 rd opRType
  | .and rd rs1 rs2 => encodeR 0b0000000#7 rs2 rs1 0b111#3 rd opRType
  | .addi rd rs1 imm => encodeI imm rs1 0b000#3 rd opIAlu
  | .slti rd rs1 imm => encodeI imm rs1 0b010#3 rd opIAlu
  | .slli rd rs1 funct7 shamt => encodeR funct7 shamt rs1 0b001#3 rd opIAlu
  | .srli rd rs1 funct7 shamt => encodeR funct7 shamt rs1 0b101#3 rd opIAlu
  | .srai rd rs1 funct7 shamt => encodeR funct7 shamt rs1 0b101#3 rd opIAlu
  | .lw rd rs1 imm => encodeI imm rs1 0b010#3 rd opLoad
  | .sw rs2 rs1 imm => encodeS imm rs2 rs1 0b010#3 opStore
  | .beq rs1 rs2 offset => encodeB offset rs2 rs1 0b000#3 opBranch
  | .bne rs1 rs2 offset => encodeB offset rs2 rs1 0b001#3 opBranch
  | .blt rs1 rs2 offset => encodeB offset rs2 rs1 0b100#3 opBranch
  | .bge rs1 rs2 offset => encodeB offset rs2 rs1 0b101#3 opBranch
  | .jal rd offset => encodeJ offset rd opJal
  | .jalr rd rs1 imm => encodeI imm rs1 0b000#3 rd opJalr
  | .lui rd imm20 => encodeU imm20 rd opLui
  | .auipc rd imm20 => encodeU imm20 rd opAuipc

/-- The bits of a word that the decoder reads for an instruction: those of opcode, operands, and funct3 or bit 30
where they are examined (R93 to R95). The bits outside are the ones the spec says are ignored. -/
def examinedBits : Instr → Word
  | .add .. | .sub .. | .srl .. | .sra .. => 0x41FFFFFF#32
  | .sll .. | .slt .. | .xor .. | .or .. | .and .. => 0x01FFFFFF#32
  | .addi .. | .slti .. | .slli .. | .srli .. | .srai .. => 0xFFFFFFFF#32
  | .lw .. | .sw .. | .jalr .. => 0xFFFF8FFF#32
  | .beq .. | .bne .. | .blt .. | .bge .. => 0xFFFFFFFF#32
  | .jal .. | .lui .. | .auipc .. => 0xFFFFFFFF#32

end Sys2Proof
end

