-- ==== Sys2Proof/Machine/Ops.lean ====
section
/-! DEFINITION. The shared operations over memory, registers and pipeline registers (20_memory.md, 10_state.md §2,
47_pipeline.md §2). The CORE takes no exception and returns from none (60_exceptions.md R300, R305, R306), so no
operation of that kind stands here; the one way a cycle stops is the range check at the end of this file. -/

namespace Sys2Proof.Machine

/-! ### Memory contents, byte by byte -/

/-- The canonical form: addresses strictly rising, and no entry equal to what an unlisted address reads as. -/
abbrev Memory.wf (m : Memory) : Prop :=
  m.Pairwise (fun c d => c.1 < d.1) ∧ ∀ c ∈ m, c.2 ≠ Config.unlistedByte

/-- Every listed address is that of a byte of the first `words` words. -/
abbrev Memory.within (m : Memory) (words : Nat) : Prop := ∀ c ∈ m, c.1 < 4 * words

/-- The byte at an address; an unlisted address reads as `Config.unlistedByte`. -/
def readByte : Memory → Nat → Byte
  | [], _ => Config.unlistedByte
  | (b, v) :: m, a => if b = a then v else readByte m a

/-- Put the byte `v` at address `a`, keeping the canonical form: writing what an unlisted address reads as removes the
entry. -/
def writeByte : Memory → Nat → Byte → Memory
  | [], a, v => if v = Config.unlistedByte then [] else [(a, v)]
  | (b, u) :: m, a, v =>
    if a < b then
      if v = Config.unlistedByte then (b, u) :: m else (a, v) :: (b, u) :: m
    else if a = b then
      if v = Config.unlistedByte then m else (a, v) :: m
    else (b, u) :: writeByte m a v

/-! ### Memory words: the only width the CORE accesses (R58) -/

/-- The word index of a byte address: `addr >>u 2` (R50). -/
def wordIndex (addr : Word) : Nat := (addr >>> 2).toNat

/-- The word with index `i`. -/
def readWord (m : Memory) (i : Nat) : Word :=
  wordOfBytes (readByte m (4 * i)) (readByte m (4 * i + 1)) (readByte m (4 * i + 2)) (readByte m (4 * i + 3))

/-- Replace the whole word with index `i`; there are no byte enables (R54). -/
def writeWord (m : Memory) (i : Nat) (v : Word) : Memory :=
  writeByte (writeByte (writeByte (writeByte m (4 * i) (byteOfWord v 0)) (4 * i + 1) (byteOfWord v 1))
    (4 * i + 2) (byteOfWord v 2)) (4 * i + 3) (byteOfWord v 3)

/-- `IMemRead` inside the capacity (R51). -/
def imemRead (m : Memory) (addr : Word) : Word := readWord m (wordIndex addr)

/-- `MemRead(addr, 4)` inside the capacity (R53): the low two address bits are dropped (R57). -/
def memRead (m : Memory) (addr : Word) : Word := readWord m (wordIndex addr)

/-- `MemWrite(addr, 4, v)` inside the capacity (R54): the low two address bits are dropped (R57). -/
def memWrite (m : Memory) (addr : Word) (v : Word) : Memory := writeWord m (wordIndex addr) v

/-- A memory holding a list of words from word `i` upward (R59, D13: the images are lists of words). -/
def placeWords (m : Memory) : Nat → List Word → Memory
  | _, [] => m
  | i, w :: ws => placeWords (writeWord m i w) (i + 1) ws

/-! ### The register file (R21 to R24) -/

/-- The stored register X[a], with no rule for x0. -/
def storedReg (x : RegFile) (a : RegAddr) : Word := x[a.toNat]'(a.isLt)

/-- The value of register `a` with x0 hardwired to zero (R22). -/
def readReg (x : RegFile) (a : RegAddr) : Word := if a = 0#5 then 0#32 else storedReg x a

/-- The write port (R24): gated by the enable and by rd ≠ 0; a write to x0 is discarded (R22). -/
def writeReg (x : RegFile) (en : Bool) (a : RegAddr) (v : Word) : RegFile :=
  if en && a != 0#5 then x.set a.toNat v a.isLt else x

/-- A read port with its same-cycle bypass (R23): x0 first, then the incoming write, then the stored value. -/
def readPort (x : RegFile) (wbEn : Bool) (wbAddr : RegAddr) (wbData : Word) (a : RegAddr) : Word :=
  if a = 0#5 then 0#32
  else if wbEn && wbAddr == a then wbData
  else storedReg x a

/-! ### Pipeline registers (R252) -/

/-- The next value of a pipeline register: "Flush strictly dominates stall." -/
def nextLatch {α : Type} (stall flush : Bool) (bubble out input : α) : α :=
  if flush then bubble else if stall then out else input

/-! ### Out-of-range accesses (R56) -/

/-- The fetch of this cycle, when it is out of range. It is made in every cycle (R254). -/
def State.badFetch (s : State) : List Access :=
  if wordIndex s.pc < s.params.imemWords then [] else [⟨.fetch, s.pc⟩]

/-- The load of the instruction in MEM, when it is out of range. -/
def State.badLoad (s : State) : List Access :=
  if s.exmem.ctrl.memRead && !decide (wordIndex s.exmem.aluResult < s.params.dmemWords) then
    [⟨.load, s.exmem.aluResult⟩] else []

/-- The store of the instruction in MEM, when it is out of range. -/
def State.badStore (s : State) : List Access :=
  if s.exmem.ctrl.memWrite && !decide (wordIndex s.exmem.aluResult < s.params.dmemWords) then
    [⟨.store, s.exmem.aluResult⟩] else []

/-- Every out-of-range access of this cycle (R271). -/
def State.badAccesses (s : State) : List Access := s.badLoad ++ s.badStore ++ s.badFetch

end Sys2Proof.Machine
end

