-- ==== Sys2Proof/Machine/Operands.lean ====
section
/-! DEFINITION. The combinational signals of one cycle (47_pipeline.md R254 to R268): the write-back value, the operands
of ID and EX with bypass and forwarding, the ALU outputs, the load-use condition and the redirect. Every signal is a
function of the state at the start of the cycle alone (R251). -/

namespace Sys2Proof.Machine

/-- The decoder's output (R88): the control bundle, the three register addresses as extracted, the immediate. -/
structure IdOut where
  ctrl : ControlSignals
  rs1 : RegAddr
  rs2 : RegAddr
  rd : RegAddr
  imm : Word
  deriving DecidableEq, Repr

/-- The write-back value, computed in every cycle (R268). -/
def State.wbData (s : State) : Word :=
  if s.memwb.ctrl.memToReg then s.memwb.memData else s.memwb.aluResult

/-- The ID stage's read of a register, with the bypass from the write port (R23, R255). -/
def State.idRead (s : State) (a : RegAddr) : Word :=
  readPort s.x s.memwb.ctrl.regWrite s.memwb.rdAddr s.wbData a

/-- The word fetched in this cycle: read in every cycle, latched or not (R254). -/
def State.fetchWord (s : State) : Word := imemRead s.imem s.pc

/-- The three choices of a forwarding selector (R258). The source gives their 2-bit codes no values (U14; log 20). -/
inductive ForwardSel where
  /-- Distance 1: the EX/MEM ALU result. -/
  | exMem
  /-- Distance 2: the MEM/WB write-back value. -/
  | memWb
  /-- No forward: the value latched in ID/EX. -/
  | latched
  deriving DecidableEq, Repr

/-- The forwarding selector for a register address, EX/MEM first (R258). -/
def State.forwardSel (s : State) (r : RegAddr) : ForwardSel :=
  if s.exmem.ctrl.regWrite && s.exmem.rdAddr != 0#5 && s.exmem.rdAddr == r then .exMem
  else if s.memwb.ctrl.regWrite && s.memwb.rdAddr != 0#5 && s.memwb.rdAddr == r then .memWb
  else .latched

/-- `fwd(r, v)` (R258). -/
def State.forward (s : State) (r : RegAddr) (v : Word) : Word :=
  match s.forwardSel r with
  | .exMem => s.exmem.aluResult
  | .memWb => s.wbData
  | .latched => v

/-- The first ALU operand (R259). -/
def State.src1 (s : State) : Word := s.forward s.idex.rs1 s.idex.rs1Data

/-- The forwarded rs2 value: the second operand of register forms, and the store data (R259, R263). -/
def State.fwdB (s : State) : Word := s.forward s.idex.rs2 s.idex.rs2Data

/-- The second ALU operand: the immediate wins over a forwarded value (R260). -/
def State.src2 (s : State) : Word := if s.idex.ctrl.aluSrcImmediate then s.idex.imm else s.fwdB

/-- The ALU outputs of the instruction in EX (R261). -/
def State.aluOut (s : State) : AluOut := alu s.idex.ctrl.aluOp s.src1 s.src2 s.idex.pc s.idex.imm

/-- The redirect condition: `taken = branchTaken` (R262, D16). -/
def State.taken (s : State) : Bool := s.aluOut.branchTaken

/-- The redirect target (R262). -/
def State.target (s : State) : Word := s.aluOut.branchTarget

/-- The load-use condition for an instruction in ID with these raw rs1 and rs2 fields (R256). -/
def State.loadUseOn (s : State) (rs1 rs2 : RegAddr) : Bool :=
  s.idex.ctrl.memRead && s.idex.rd != 0#5 && (s.idex.rd == rs1 || s.idex.rd == rs2)

/-- The load-use condition of the cycle: the fields of the word in IF/ID, whatever its format (R256, R81). -/
def State.loadUse (s : State) : Bool := s.loadUseOn (rs1Field s.ifid.inst) (rs2Field s.ifid.inst)

/-- The word taken into MEM/WB: what a load reads, 0 for any other instruction (R266, D8; log 11). -/
def State.memData (s : State) : Word :=
  if s.exmem.ctrl.memRead then memRead s.dmem s.exmem.aluResult else 0#32

end Sys2Proof.Machine
end

