-- ==== Sys2Proof/Machine/Decoder.lean ====
section
/-! DEFINITION. The decoder of the ID stage as the hardware has it (30_encoding.md R88 to R97): the control bundle of
each class (R91, R92), the decoder's output for each instruction format, and `decode(w)` as one function from the word,
transcribed from the composition that closes §3 of that file. The step goes through `decodeWord` and the instruction's
meaning; `decodeSignals` is the second reading it is compared with. -/

namespace Sys2Proof.Machine

/-! ### Control bundles (R91, R92) -/

def ctrlRType (op : AluOp) : ControlSignals := { regWrite := true, aluOp := op }
def ctrlIAlu (op : AluOp) : ControlSignals := { regWrite := true, aluSrcImmediate := true, aluOp := op }
/-- memToReg is 1 for LOAD and 0 for every other class (R92). -/
def ctrlLoad : ControlSignals :=
  { regWrite := true, memRead := true, aluSrcImmediate := true, memToReg := true, aluOp := .add }
def ctrlStore : ControlSignals := { memWrite := true, aluSrcImmediate := true, aluOp := .add }
def ctrlBranch (op : AluOp) : ControlSignals := { branch := true, aluOp := op }
def ctrlJal : ControlSignals := { regWrite := true, jump := true, aluOp := .jal }
def ctrlJalr : ControlSignals := { regWrite := true, aluSrcImmediate := true, jump := true, aluOp := .jalr }
def ctrlLui : ControlSignals := { regWrite := true, aluOp := .lui }
def ctrlAuipc : ControlSignals := { regWrite := true, aluOp := .auipc }

/-- Every bundle the decoder produces (R89, R91 with R94 to R96). -/
def decoderBundles : List ControlSignals :=
  [.off, ctrlLoad, ctrlStore, ctrlJal, ctrlJalr, ctrlLui, ctrlAuipc] ++
  ([.add, .sub, .sll, .slt, .xor, .srl, .sra, .or, .and] : List AluOp).map ctrlRType ++
  ([.add, .slt, .sll, .srl, .sra] : List AluOp).map ctrlIAlu ++
  ([.beq, .bne, .blt, .bge] : List AluOp).map ctrlBranch

/-! ### The decoder's output per format: the raw register fields are those of the word (R81) -/

/-- R-type: all three fields are operands, the immediate is 0 (R97, R122). -/
def idOutR (op : AluOp) (rd rs1 rs2 : RegAddr) : IdOut := ⟨ctrlRType op, rs1, rs2, rd, 0#32⟩

/-- I-type (I-ALU, LOAD, JALR): w[24:20] is the low five bits of the immediate (R82, R140). -/
def idOutI (ctrl : ControlSignals) (rd rs1 : RegAddr) (imm : BitVec 12) : IdOut :=
  ⟨ctrl, rs1, imm.extractLsb' 0 5, rd, sext12 imm⟩

/-- The shift-immediates: the immediate is `{funct7, shamt}` sign-extended, w[24:20] is shamt (R82, R143 to R145). -/
def idOutShift (op : AluOp) (rd rs1 : RegAddr) (funct7 : BitVec 7) (shamt : BitVec 5) : IdOut :=
  ⟨ctrlIAlu op, rs1, shamt, rd, sext12 (funct7 ++ shamt)⟩

/-- S-type: w[11:7], extracted as rd, is the low five bits of the immediate (R81, R162). -/
def idOutS (rs2 rs1 : RegAddr) (imm : BitVec 12) : IdOut := ⟨ctrlStore, rs1, rs2, imm.extractLsb' 0 5, sext12 imm⟩

/-- B-type: w[11:7], extracted as rd, is `{offset[4:1], offset[11]}` (R82, R180). -/
def idOutB (op : AluOp) (rs1 rs2 : RegAddr) (offset : BitVec 13) : IdOut :=
  ⟨ctrlBranch op, rs1, rs2, offset.extractLsb' 1 4 ++ offset.extractLsb' 11 1, sext13 offset⟩

/-- U-type: w[19:15] and w[24:20] are bits of the immediate (R82, R220). -/
def idOutU (ctrl : ControlSignals) (rd : RegAddr) (imm20 : BitVec 20) : IdOut :=
  ⟨ctrl, imm20.extractLsb' 3 5, imm20.extractLsb' 8 5, rd, upper20 imm20⟩

/-- J-type: w[19:15] is `offset[19:15]`, w[24:20] is `{offset[4:1], offset[11]}` (R82, R201). -/
def idOutJ (rd : RegAddr) (offset : BitVec 21) : IdOut :=
  ⟨ctrlJal, offset.extractLsb' 15 5, offset.extractLsb' 1 4 ++ offset.extractLsb' 11 1, rd, sext21 offset⟩

/-- The default output: the bubble's bundle and immediate with the extracted fields (R88, R89). -/
def idOutDefault (w : Word) : IdOut := ⟨.off, rs1Field w, rs2Field w, rdField w, 0#32⟩

/-! ### `decode(w)` in one piece -/

/-- The R-type operation of funct3 and w[30] (R94). -/
def rTypeOp (w : Word) : Option AluOp :=
  match (funct3Field w).toNat, bit30 w with
  | 0, false => some .add
  | 0, true => some .sub
  | 1, _ => some .sll
  | 2, _ => some .slt
  | 4, _ => some .xor
  | 5, false => some .srl
  | 5, true => some .sra
  | 6, _ => some .or
  | 7, _ => some .and
  | _, _ => none

/-- The I-ALU operation of funct3 and, for funct3 101, w[30] (R95). -/
def iAluOp (w : Word) : Option AluOp :=
  match (funct3Field w).toNat, bit30 w with
  | 0, _ => some .add
  | 1, _ => some .sll
  | 2, _ => some .slt
  | 5, false => some .srl
  | 5, true => some .sra
  | _, _ => none

/-- The BRANCH operation of funct3 (R96). -/
def branchOp (w : Word) : Option AluOp :=
  match (funct3Field w).toNat with
  | 0 => some .beq
  | 1 => some .bne
  | 4 => some .blt
  | 5 => some .bge
  | _ => none

/-- The control bundle and immediate of a word, by its opcode class (R91, R97); none for the default output. -/
def decodeClass (w : Word) : Option (ControlSignals × Word) :=
  match (opcodeField w).toNat with
  | 0b0110011 => (rTypeOp w).map fun op => (ctrlRType op, 0#32)
  | 0b0010011 => (iAluOp w).map fun op => (ctrlIAlu op, immI w)
  | 0b0000011 => some (ctrlLoad, immI w)
  | 0b0100011 => some (ctrlStore, immS w)
  | 0b1100011 => (branchOp w).map fun op => (ctrlBranch op, immB w)
  | 0b1101111 => some (ctrlJal, immJ w)
  | 0b1100111 => some (ctrlJalr, immI w)
  | 0b0110111 => some (ctrlLui, immU w)
  | 0b0010111 => some (ctrlAuipc, immU w)
  | _ => none

/-- `decode(inst) -> (ControlSignals, RegisterAddress, imm)` (R88), total on every word. -/
def decodeSignals (w : Word) : IdOut :=
  match decodeClass w with
  | some (ctrl, imm) => ⟨ctrl, rs1Field w, rs2Field w, rdField w, imm⟩
  | none => idOutDefault w

end Sys2Proof.Machine
end

