-- ==== Sys2Proof/Machine/Pipeline.lean ====
section
/-! DEFINITION. One clock cycle (47_pipeline.md R271), as a shared operation over the decoder's output for the
instruction in ID. Every instruction's meaning is this operation applied to what the decoder gives that instruction. -/

namespace Sys2Proof.Machine

/-- The ID/EX input (R255). -/
def State.idexIn (s : State) (d : IdOut) : IdEx where
  pc := s.ifid.pc
  rs1Data := s.idRead d.rs1
  rs2Data := s.idRead d.rs2
  imm := d.imm
  rs1 := d.rs1
  rs2 := d.rs2
  rd := d.rd
  ctrl := d.ctrl

/-- The EX/MEM input (R263): the store data is the forwarded rs2 value. -/
def State.exmemIn (s : State) : ExMem where
  pc := s.idex.pc
  aluResult := s.aluOut.result
  rs2Data := s.fwdB
  rdAddr := s.idex.rd
  ctrl := s.idex.ctrl

/-- The MEM/WB input (R266). -/
def State.memwbIn (s : State) : MemWb where
  pc := s.exmem.pc
  aluResult := s.exmem.aluResult
  memData := s.memData
  rdAddr := s.exmem.rdAddr
  ctrl := s.exmem.ctrl

/-- The next PC (R264). -/
def State.nextPc (s : State) (loadUse : Bool) : Word :=
  if s.taken then s.target else if loadUse then s.pc else s.pc + 4#32

/-- The data memory after the cycle: the store of the instruction in MEM, if it is one (R54, R265). -/
def State.nextDmem (s : State) : Memory :=
  if s.exmem.ctrl.memWrite then memWrite s.dmem s.exmem.aluResult s.exmem.rs2Data else s.dmem

/-- The register file after the cycle: the write port driven from MEM/WB (R24, R267). -/
def State.nextRegs (s : State) : RegFile :=
  writeReg s.x s.memwb.ctrl.regWrite s.memwb.rdAddr s.wbData

/-- The commit of a cycle, all at once (R271), with the stall and flush inputs of R253: EX/MEM and MEM/WB are never
stalled and never flushed (R269, D7; log 7). -/
def State.commit (s : State) (d : IdOut) : State where
  pc := s.nextPc (s.loadUseOn d.rs1 d.rs2)
  x := s.nextRegs
  ifid := nextLatch (s.loadUseOn d.rs1 d.rs2) s.taken .bubble s.ifid ⟨s.pc, s.fetchWord⟩
  idex := nextLatch false (s.taken || s.loadUseOn d.rs1 d.rs2) .bubble s.idex (s.idexIn d)
  exmem := nextLatch false false .bubble s.exmem s.exmemIn
  memwb := nextLatch false false .bubble s.memwb s.memwbIn
  imem := s.imem
  dmem := s.nextDmem
  params := s.params

/-- One clock cycle whose ID stage decodes an instruction to `d` (R271). If an access of the cycle is out of range there
is no next state and nothing commits (R56, R302, R305). -/
def cycle (d : IdOut) (s : State) : Host.Outcome State Fault Refusal :=
  match s.badAccesses with
  | [] => .next (s.commit d)
  | bad => .fault (.outOfRange bad)

end Sys2Proof.Machine
end

