-- ==== Sys2Proof/Machine/Branch.lean ====
section
/-! DEFINITION. The four conditional branches (43_branch.md R180 to R184), each the clock cycle in which it is in ID
(log 3). The condition is tested in EX, one cycle later, and a taken branch redirects there (R262). -/

namespace Sys2Proof.Machine

/-- BEQ (R181): to pc + offset if `x[rs1] == x[rs2]`. -/
def execBeq (rs1 rs2 : RegAddr) (offset : BitVec 13) (s : State) : Host.Outcome State Fault Refusal :=
  cycle (idOutB .beq rs1 rs2 offset) s

/-- BNE (R182): to pc + offset if `x[rs1] != x[rs2]`. -/
def execBne (rs1 rs2 : RegAddr) (offset : BitVec 13) (s : State) : Host.Outcome State Fault Refusal :=
  cycle (idOutB .bne rs1 rs2 offset) s

/-- BLT (R183): to pc + offset if `x[rs1] <s x[rs2]`. -/
def execBlt (rs1 rs2 : RegAddr) (offset : BitVec 13) (s : State) : Host.Outcome State Fault Refusal :=
  cycle (idOutB .blt rs1 rs2 offset) s

/-- BGE (R184): to pc + offset if `x[rs1] >=s x[rs2]`. -/
def execBge (rs1 rs2 : RegAddr) (offset : BitVec 13) (s : State) : Host.Outcome State Fault Refusal :=
  cycle (idOutB .bge rs1 rs2 offset) s

end Sys2Proof.Machine
end

