-- ==== Sys2Proof/Machine/Jump.lean ====
section
/-! DEFINITION. JAL and JALR (44_jump.md R200 to R202), each the clock cycle in which it is in ID (log 3). The jump is
resolved in EX like a taken branch; the link is written in WB. -/

namespace Sys2Proof.Machine

/-- JAL (R201): `x[rd] <- pc + 4; next pc <- pc + sext_21(offset)`. -/
def execJal (rd : RegAddr) (offset : BitVec 21) (s : State) : Host.Outcome State Fault Refusal :=
  cycle (idOutJ rd offset) s

/-- JALR (R202): `t <- (x[rs1] + sext_12(imm)) & 0xFFFFFFFE; x[rd] <- pc + 4; next pc <- t`. -/
def execJalr (rd rs1 : RegAddr) (imm : BitVec 12) (s : State) : Host.Outcome State Fault Refusal :=
  cycle (idOutI ctrlJalr rd rs1 imm) s

end Sys2Proof.Machine
end

