-- ==== Sys2Proof/Machine/LoadStore.lean ====
section
/-! DEFINITION. LW and SW (42_load_store.md R160 to R162), each the clock cycle in which it is in ID (log 3). The address
is the ALU's sum in EX; the access is made in MEM, two cycles after ID, and faults there if it is out of range. -/

namespace Sys2Proof.Machine

/-- LW (R161): `x[rd] <- MemRead(x[rs1] + sext_12(imm), 4)`. -/
def execLw (rd rs1 : RegAddr) (imm : BitVec 12) (s : State) : Host.Outcome State Fault Refusal :=
  cycle (idOutI ctrlLoad rd rs1 imm) s

/-- SW (R162): `MemWrite(x[rs1] + sext_12(imm), 4, x[rs2])`. -/
def execSw (rs2 rs1 : RegAddr) (imm : BitVec 12) (s : State) : Host.Outcome State Fault Refusal :=
  cycle (idOutS rs2 rs1 imm) s

end Sys2Proof.Machine
end

