-- ==== Sys2Proof/Machine/RegImm.lean ====
section
/-! DEFINITION. The five I-ALU instructions (41_integer_immediate.md R140 to R145), each the clock cycle in which it is in
ID (log 3). The second ALU operand is the immediate, chosen after forwarding. -/

namespace Sys2Proof.Machine

/-- ADDI (R141): `x[rd] <- x[rs1] + sext_12(imm)`. -/
def execAddi (rd rs1 : RegAddr) (imm : BitVec 12) (s : State) : Host.Outcome State Fault Refusal :=
  cycle (idOutI (ctrlIAlu .add) rd rs1 imm) s

/-- SLTI (R142): `x[rd] <- (x[rs1] <s sext_12(imm)) ? 1 : 0`. -/
def execSlti (rd rs1 : RegAddr) (imm : BitVec 12) (s : State) : Host.Outcome State Fault Refusal :=
  cycle (idOutI (ctrlIAlu .slt) rd rs1 imm) s

/-- SLLI (R143): `x[rd] <- x[rs1] << shamt`; funct7 is not checked. -/
def execSlli (rd rs1 : RegAddr) (funct7 : BitVec 7) (shamt : BitVec 5) (s : State) : Host.Outcome State Fault Refusal :=
  cycle (idOutShift .sll rd rs1 funct7 shamt) s

/-- SRLI (R144): `x[rd] <- x[rs1] >>u shamt`. -/
def execSrli (rd rs1 : RegAddr) (funct7 : BitVec 7) (shamt : BitVec 5) (s : State) : Host.Outcome State Fault Refusal :=
  cycle (idOutShift .srl rd rs1 funct7 shamt) s

/-- SRAI (R145): `x[rd] <- x[rs1] >>s shamt`. -/
def execSrai (rd rs1 : RegAddr) (funct7 : BitVec 7) (shamt : BitVec 5) (s : State) : Host.Outcome State Fault Refusal :=
  cycle (idOutShift .sra rd rs1 funct7 shamt) s

end Sys2Proof.Machine
end

