-- ==== Sys2Proof/Machine/RegReg.lean ====
section
/-! DEFINITION. The nine R-type instructions (40_integer_register.md R122 to R131). An instruction's meaning is the clock
cycle in which it is in ID (log 3): it reads its registers through the bypass and its bundle enters ID/EX; what it
computes is the arm of `alu` its aluOp selects, what it writes is its bundle's regWrite. -/

namespace Sys2Proof.Machine

/-- ADD (R123): `x[rd] <- x[rs1] + x[rs2]`. -/
def execAdd (rd rs1 rs2 : RegAddr) (s : State) : Host.Outcome State Fault Refusal := cycle (idOutR .add rd rs1 rs2) s

/-- SUB (R124): `x[rd] <- x[rs1] - x[rs2]`. -/
def execSub (rd rs1 rs2 : RegAddr) (s : State) : Host.Outcome State Fault Refusal := cycle (idOutR .sub rd rs1 rs2) s

/-- SLL (R125): `x[rd] <- x[rs1] << x[rs2][4:0]`. -/
def execSll (rd rs1 rs2 : RegAddr) (s : State) : Host.Outcome State Fault Refusal := cycle (idOutR .sll rd rs1 rs2) s

/-- SLT (R126): `x[rd] <- (x[rs1] <s x[rs2]) ? 1 : 0`. -/
def execSlt (rd rs1 rs2 : RegAddr) (s : State) : Host.Outcome State Fault Refusal := cycle (idOutR .slt rd rs1 rs2) s

/-- XOR (R127): `x[rd] <- x[rs1] ^ x[rs2]`. -/
def execXor (rd rs1 rs2 : RegAddr) (s : State) : Host.Outcome State Fault Refusal := cycle (idOutR .xor rd rs1 rs2) s

/-- SRL (R128): `x[rd] <- x[rs1] >>u x[rs2][4:0]`. -/
def execSrl (rd rs1 rs2 : RegAddr) (s : State) : Host.Outcome State Fault Refusal := cycle (idOutR .srl rd rs1 rs2) s

/-- SRA (R129): `x[rd] <- x[rs1] >>s x[rs2][4:0]`. -/
def execSra (rd rs1 rs2 : RegAddr) (s : State) : Host.Outcome State Fault Refusal := cycle (idOutR .sra rd rs1 rs2) s

/-- OR (R130): `x[rd] <- x[rs1] | x[rs2]`. -/
def execOr (rd rs1 rs2 : RegAddr) (s : State) : Host.Outcome State Fault Refusal := cycle (idOutR .or rd rs1 rs2) s

/-- AND (R131): `x[rd] <- x[rs1] & x[rs2]`. -/
def execAnd (rd rs1 rs2 : RegAddr) (s : State) : Host.Outcome State Fault Refusal := cycle (idOutR .and rd rs1 rs2) s

end Sys2Proof.Machine
end

