-- ==== Sys2Proof/Machine/UpperImm.lean ====
section
/-! DEFINITION. LUI and AUIPC (45_upper_immediate.md R220, R221), each the clock cycle in which it is in ID (log 3). -/

namespace Sys2Proof.Machine

/-- LUI (R220): `x[rd] <- {imm20, 12'b0}`. -/
def execLui (rd : RegAddr) (imm20 : BitVec 20) (s : State) : Host.Outcome State Fault Refusal :=
  cycle (idOutU ctrlLui rd imm20) s

/-- AUIPC (R221): `x[rd] <- pc + {imm20, 12'b0}`, pc the instruction's own address. -/
def execAuipc (rd : RegAddr) (imm20 : BitVec 20) (s : State) : Host.Outcome State Fault Refusal :=
  cycle (idOutU ctrlAuipc rd imm20) s

end Sys2Proof.Machine
end

