-- ==== Sys2Proof/Machine/NoOperation.lean ====
section
/-! DEFINITION. The words that are no row of the opcode table (46_no_operation.md R240 to R242): FENCE, ECALL, EBREAK,
MRET, WFI, the CSR instructions, SLTU, SLTIU, XORI, ORI, ANDI, BLTU, BGEU, the all-zero word and every other
unrecognised or unsupported word. None traps and none is refused: each passes through the pipeline and does nothing. -/

namespace Sys2Proof.Machine

/-- The clock cycle in which a word that is no row of the table is in ID (R240): the all-false bundle and immediate 0
enter ID/EX with the register fields as extracted, which can still stall behind a load (R256). -/
def execNoOp (w : Word) (s : State) : Host.Outcome State Fault Refusal := cycle (idOutDefault w) s

end Sys2Proof.Machine
end

