-- ==== Sys2Proof/Machine/Step.lean ====
section
/-! DEFINITION. One step of the machine: one clock cycle with rst = 0 (47_pipeline.md R271). -/

namespace Sys2Proof.Machine

/-- One clock cycle (R271): the word in IF/ID is decoded, and the cycle is that of the instruction it is, or of the no-op
a word outside the opcode table is. The same cycle fetches the word at PC into IF/ID and moves the older instructions
through EX, MEM and WB. -/
def step (s : State) : Host.Outcome State Fault Refusal :=
  match decodeWord s.ifid.inst with
  | .ok i => exec i s
  | .error _ => execNoOp s.ifid.inst s

/-- `s` in the moment the word `w` at its PC has been fetched (R254, R264): the word stands in the instruction memory at
PC and in IF/ID with its address, and PC is the next sequential address. In a pipeline the fetch of a word takes the
cycle before the one that decodes and runs it, so the very next step of this state runs exactly `w` (log 4). -/
def State.withFetchWord (s : State) (nbits w : Nat) : State :=
  let word : Word := BitVec.ofNat 32 (w % 2 ^ nbits)
  { s with
    imem := writeWord s.imem (wordIndex s.pc) word
    ifid := ⟨s.pc, word⟩
    pc := s.pc + 4#32 }

end Sys2Proof.Machine
end

