-- ==== Sys2Proof/Machine/Assembler.lean ====
section
/-! DEFINITION. The spellings of the CORE's assembler language: register names (10_state.md R26), the syntax of the eight
forms (30_encoding.md R101) and the pseudo-instructions with their expansions (R102). None of it is hardware; the names,
the syntax and the expansions are the spec's own, supplied there from general knowledge (G5 to G7; PRESUMED, safe,
log 18). -/

namespace Sys2Proof.Machine

/-- `x0` to `x31` (R26). -/
def regName (r : RegAddr) : String := "x" ++ toString r.toNat

/-- The RISC-V ABI spelling of a register (R26). -/
def abiNames : List String :=
  ["zero", "ra", "sp", "gp", "tp", "t0", "t1", "t2", "s0", "s1", "a0", "a1", "a2", "a3", "a4", "a5"] ++
  ["a6", "a7", "s2", "s3", "s4", "s5", "s6", "s7", "s8", "s9", "s10", "s11", "t3", "t4", "t5", "t6"]

/-- The ABI name of a register; x8 is also spelled `fp` (R26). -/
def abiName (r : RegAddr) : String := abiNames.getD r.toNat ""

/-- `op rd, rs1, rs2`. -/
def asmR (op : String) (rd rs1 rs2 : RegAddr) : String :=
  op ++ " " ++ regName rd ++ ", " ++ regName rs1 ++ ", " ++ regName rs2
/-- `op rd, rs1, imm`, the immediate as a signed number. -/
def asmI (op : String) (rd rs1 : RegAddr) (imm : BitVec 12) : String :=
  op ++ " " ++ regName rd ++ ", " ++ regName rs1 ++ ", " ++ toString imm.toInt
/-- `op rd, rs1, shamt`. -/
def asmShift (op : String) (rd rs1 : RegAddr) (shamt : BitVec 5) : String :=
  op ++ " " ++ regName rd ++ ", " ++ regName rs1 ++ ", " ++ toString shamt.toNat
/-- `op r, offset(base)`. -/
def asmMem (op : String) (r base : RegAddr) (imm : BitVec 12) : String :=
  op ++ " " ++ regName r ++ ", " ++ toString imm.toInt ++ "(" ++ regName base ++ ")"
/-- `op rs1, rs2, offset`: the assembler computes the offset of a label (R101). -/
def asmB (op : String) (rs1 rs2 : RegAddr) (offset : BitVec 13) : String :=
  op ++ " " ++ regName rs1 ++ ", " ++ regName rs2 ++ ", " ++ toString offset.toInt
/-- `op rd, imm20`, the value of bits 31:12. -/
def asmU (op : String) (rd : RegAddr) (imm20 : BitVec 20) : String :=
  op ++ " " ++ regName rd ++ ", " ++ toString imm20.toNat

/-- The assembler text of an instruction (R101), in lower case. -/
def asm : Instr → String
  | .add rd rs1 rs2 => asmR "add" rd rs1 rs2
  | .sub rd rs1 rs2 => asmR "sub" rd rs1 rs2
  | .sll rd rs1 rs2 => asmR "sll" rd rs1 rs2
  | .slt rd rs1 rs2 => asmR "slt" rd rs1 rs2
  | .xor rd rs1 rs2 => asmR "xor" rd rs1 rs2
  | .srl rd rs1 rs2 => asmR "srl" rd rs1 rs2
  | .sra rd rs1 rs2 => asmR "sra" rd rs1 rs2
  | .or rd rs1 rs2 => asmR "or" rd rs1 rs2
  | .and rd rs1 rs2 => asmR "and" rd rs1 rs2
  | .addi rd rs1 imm => asmI "addi" rd rs1 imm
  | .slti rd rs1 imm => asmI "slti" rd rs1 imm
  | .slli rd rs1 _ shamt => asmShift "slli" rd rs1 shamt
  | .srli rd rs1 _ shamt => asmShift "srli" rd rs1 shamt
  | .srai rd rs1 _ shamt => asmShift "srai" rd rs1 shamt
  | .lw rd rs1 imm => asmMem "lw" rd rs1 imm
  | .sw rs2 rs1 imm => asmMem "sw" rs2 rs1 imm
  | .beq rs1 rs2 offset => asmB "beq" rs1 rs2 offset
  | .bne rs1 rs2 offset => asmB "bne" rs1 rs2 offset
  | .blt rs1 rs2 offset => asmB "blt" rs1 rs2 offset
  | .bge rs1 rs2 offset => asmB "bge" rs1 rs2 offset
  | .jal rd offset => "jal " ++ regName rd ++ ", " ++ toString offset.toInt
  | .jalr rd rs1 imm => asmMem "jalr" rd rs1 imm
  | .lui rd imm20 => asmU "lui" rd imm20
  | .auipc rd imm20 => asmU "auipc" rd imm20

/-- The pseudo-instructions of R102. A label operand is its distance from the pseudo-instruction's own address. -/
inductive Pseudo where
  | nop
  | mv (rd rs : RegAddr)
  /-- `li` of an immediate in -2048 .. 2047. -/
  | liShort (rd : RegAddr) (imm : BitVec 12)
  /-- `li` of any other 32-bit immediate. -/
  | li (rd : RegAddr) (imm : Word)
  | la (rd : RegAddr) (distance : Word)
  | neg (rd rs : RegAddr)
  | not (rd rs : RegAddr)
  | seqz (rd rs : RegAddr)
  | snez (rd rs : RegAddr)
  | sltz (rd rs : RegAddr)
  | sgtz (rd rs : RegAddr)
  | beqz (rs : RegAddr) (distance : BitVec 13)
  | bnez (rs : RegAddr) (distance : BitVec 13)
  | bltz (rs : RegAddr) (distance : BitVec 13)
  | bgez (rs : RegAddr) (distance : BitVec 13)
  | blez (rs : RegAddr) (distance : BitVec 13)
  | bgtz (rs : RegAddr) (distance : BitVec 13)
  | bgt (rs rt : RegAddr) (distance : BitVec 13)
  | ble (rs rt : RegAddr) (distance : BitVec 13)
  | bltu (rs rt : RegAddr) (distance : BitVec 13)
  | bgeu (rs rt : RegAddr) (distance : BitVec 13)
  | bgtu (rs rt : RegAddr) (distance : BitVec 13)
  | bleu (rs rt : RegAddr) (distance : BitVec 13)
  | j (distance : BitVec 21)
  | jalLink (distance : BitVec 21)
  | jr (rs : RegAddr)
  | jalrLink (rs : RegAddr)
  | ret
  | call (distance : Word)
  | tail (distance : Word)
  deriving DecidableEq, Repr

/-- The upper 20 bits that, with the sign-extended low 12, add up to `v`: `(v + 0x800) >> 12` (R102). -/
def hi20 (v : Word) : BitVec 20 := (v + 0x800#32).extractLsb' 12 20

/-- `v & 0xFFF` (R102). -/
def lo12 (v : Word) : BitVec 12 := v.extractLsb' 0 12

/-- The words a pseudo-instruction assembles to (R102). The last column of R102 says which of them run as named: those
that use XORI, SLTIU, SLTU, BLTU or BGEU assemble to words that execute as no-ops. -/
def Pseudo.words : Pseudo → List Word
  | .nop => [encode (.addi 0 0 0)]
  | .mv rd rs => [encode (.addi rd rs 0)]
  | .liShort rd imm => [encode (.addi rd 0 imm)]
  | .li rd imm => [encode (.lui rd (hi20 imm)), encode (.addi rd rd (lo12 imm))]
  | .la rd d => [encode (.auipc rd (hi20 d)), encode (.addi rd rd (lo12 d))]
  | .neg rd rs => [encode (.sub rd 0 rs)]
  | .not rd rs => [encodeI 0xFFF#12 rs 0b100#3 rd opIAlu]
  | .seqz rd rs => [encodeI 1#12 rs 0b011#3 rd opIAlu]
  | .snez rd rs => [encodeR 0#7 rs 0#5 0b011#3 rd opRType]
  | .sltz rd rs => [encode (.slt rd rs 0)]
  | .sgtz rd rs => [encode (.slt rd 0 rs)]
  | .beqz rs d => [encode (.beq rs 0 d)]
  | .bnez rs d => [encode (.bne rs 0 d)]
  | .bltz rs d => [encode (.blt rs 0 d)]
  | .bgez rs d => [encode (.bge rs 0 d)]
  | .blez rs d => [encode (.bge 0 rs d)]
  | .bgtz rs d => [encode (.blt 0 rs d)]
  | .bgt rs rt d => [encode (.blt rt rs d)]
  | .ble rs rt d => [encode (.bge rt rs d)]
  | .bltu rs rt d => [encodeB d rt rs 0b110#3 opBranch]
  | .bgeu rs rt d => [encodeB d rt rs 0b111#3 opBranch]
  | .bgtu rs rt d => [encodeB d rs rt 0b110#3 opBranch]
  | .bleu rs rt d => [encodeB d rs rt 0b111#3 opBranch]
  | .j d => [encode (.jal 0 d)]
  | .jalLink d => [encode (.jal 1 d)]
  | .jr rs => [encode (.jalr 0 rs 0)]
  | .jalrLink rs => [encode (.jalr 1 rs 0)]
  | .ret => [encode (.jalr 0 1 0)]
  | .call d => [encode (.auipc 1 (hi20 d)), encode (.jalr 1 1 (lo12 d))]
  | .tail d => [encode (.auipc 6 (hi20 d)), encode (.jalr 0 6 (lo12 d))]

end Sys2Proof.Machine
end

