-- ==== Sys2Proof/Machine/Observe.lean ====
section
/-! DEFINITION. What the CORE shows in a cycle: the observation outputs (47_pipeline.md R270, 20_memory.md R55) and the
ports (R272). All are functions of the state at the start of the cycle; no program can see them (60_exceptions.md R312). -/

namespace Sys2Proof.Machine

/-- The write observation `{wrote, addr, data}` (R55): the byte address; 0 and 0 when nothing is written (D14; log 11). -/
structure WriteObs where
  wrote : Bool
  addr : Word
  data : Word
  deriving DecidableEq, Repr

/-- The observation outputs of a cycle (R270). -/
structure Observation where
  pc : Word
  inst : Word
  wb : Word
  write : WriteObs
  deriving DecidableEq, Repr

/-- The write observation of the cycle (R55). -/
def State.writeObs (s : State) : WriteObs :=
  if s.exmem.ctrl.memWrite then ⟨true, s.exmem.aluResult, s.exmem.rs2Data⟩ else ⟨false, 0#32, 0#32⟩

/-- The observation outputs of the cycle (R270, D22, D24). They describe a cycle that has a next state: where the fetch
is out of range the cycle faults and `inst` means nothing. -/
def State.observe (s : State) : Observation := ⟨s.pc, s.fetchWord, s.wbData, s.writeObs⟩

/-- The CORE's output ports besides the observation outputs (R272, D19). -/
structure Ports where
  imemAddr : Word
  dmemAddr : Word
  dmemWdata : Word
  dmemRe : Bool
  dmemWe : Bool
  deriving DecidableEq, Repr

/-- The output ports of the cycle (R272). -/
def State.ports (s : State) : Ports where
  imemAddr := s.pc
  dmemAddr := s.exmem.aluResult
  dmemWdata := s.exmem.rs2Data
  dmemRe := s.exmem.ctrl.memRead
  dmemWe := s.exmem.ctrl.memWrite

end Sys2Proof.Machine
end

