-- ==== Sys2Proof/Machine/Harness.lean ====
section
/-! DEFINITION. What the host does to the CORE (70_reset_and_hazards.md R330 to R335): the reset input, placing the images,
the stop rule with its drain, and the program obligations as they are seen during a run. -/

namespace Sys2Proof.Machine

/-- The state after a cycle with rst = 1: S_0 with both memories and their capacities as they are (R330, D20; log 9). -/
def State.afterReset (s : State) : State := { State.reset with imem := s.imem, dmem := s.dmem, params := s.params }

/-- One clock edge with the reset input: synchronous and active-high, it ignores S (R330). -/
def clock (rst : Bool) (s : State) : Host.Outcome State Fault Refusal :=
  if rst then .next s.afterReset else step s

/-! ### Boot (R59, R332) -/

/-- The state a run starts from: the program image and the data in memories of the given capacities, the CORE reset
(R332). -/
def State.boot (p : Params) (imem dmem : Memory) : State := { State.reset with imem := imem, dmem := dmem, params := p }

/-- The instruction memory of IMEM_IMAGE: its words from word 0, 0 beyond (R59, D11, D13). None where the image is not "a
list of at most `IMEM_WORDS` 32-bit words" (R7). -/
def imageMemory (p : Params) (image : List Word) : Option Memory :=
  if image.length ≤ p.imemWords then some (placeWords [] 0 image) else none

/-- A data memory is a DMEM_INIT, "`DMEM_WORDS` 32-bit words" (R7), when it is canonical and lists no byte beyond them. -/
def isDataInit (p : Params) (dmem : Memory) : Bool := decide (dmem.wf ∧ dmem.within p.dmemWords)

/-- The steps of R332 before the clock: image placed, data set, CORE reset; none where R7 does not admit them. -/
def loadRun (p : Params) (image : List Word) (dmem : Memory) : Option State :=
  match imageMemory p image with
  | some imem => if isDataInit p dmem then some (State.boot p imem dmem) else none
  | none => none

/-! ### The end of a run (R333, R334) -/

/-- The stop condition of a cycle: a zero word is fetched and latched into IF/ID (R333, D22). -/
def State.stopsHere (s : State) : Bool :=
  decide (wordIndex s.pc < s.params.imemWords) && s.fetchWord == 0#32 && !s.loadUse && !s.taken

/-- The word at an address of the instruction memory is a JAL or a JALR. -/
def isJumpAt (imem : Memory) (addr : Word) : Bool :=
  opcodeField (imemRead imem addr) == opJal || opcodeField (imemRead imem addr) == opJalr

/-- The obligations of R334, as they are known in the cycle after the stop cycle t of a run (DEDUCED, safe, log 10).
`o1`: neither the word at Z-4 nor the word at Z-8 is a jump, and no instruction at either address has redirected in a
cycle up to t + 1, in which the instruction before the stop word is in EX.
`o2`: the stop word was not already read, unlatched, in a stall cycle just before t.
`o3`: every drain fetch is within the instruction memory. -/
structure ProgramObligations where
  o1 : Bool
  o2 : Bool
  o3 : Bool
  deriving DecidableEq, Repr

/-- What a run has seen before a cycle: whether the cycle before was a load-use stall, and the word indices of the
instructions that have redirected. -/
structure RunHistory where
  stalled : Bool
  redirected : List Nat
  deriving DecidableEq, Repr

/-- The history before cycle 0. -/
def RunHistory.start : RunHistory := ⟨false, []⟩

/-- The history after a cycle: a redirect is that of the instruction in EX. -/
def RunHistory.after (h : RunHistory) (s : State) : RunHistory :=
  ⟨s.loadUse, if s.taken then wordIndex s.idex.pc :: h.redirected else h.redirected⟩

/-- The obligations at the stop cycle `s`, from the history before it and the state `s'` after it. -/
def ProgramObligations.atStop (h : RunHistory) (s s' : State) : ProgramObligations where
  o1 := [s.pc - 4#32, s.pc - 8#32].all fun a =>
    !isJumpAt s.imem a && !((h.after s).after s').redirected.contains (wordIndex a)
  o2 := !h.stalled
  o3 := decide (wordIndex s.pc + 3 < s.params.imemWords)

/-- How a run ends (R333). -/
inductive RunEnd where
  /-- The end state S_(t + DRAIN), with the stop cycle t and the stop word's address Z. -/
  | ended (stopCycle : Nat) (stopWord : Word) (obligations : ProgramObligations) (state : State)
  /-- No stop cycle below MAX_CYCLES: the run has no end state (U7, D25). -/
  | noEnd
  /-- A cycle had no next state (R302); the state is the one of that cycle (R305). -/
  | faulted (state : State) (fault : Fault)
  /-- A cycle was refused. -/
  | refused (state : State) (refusal : Refusal)
  /-- The image or the data are not ones that R7 admits for these capacities: there is no run. -/
  | notLoaded
  deriving DecidableEq, Repr

/-- Apply `k` cycles and end the run (the drain of R333). -/
def drainRun (t : Nat) (z : Word) (ob : ProgramObligations) : Nat → State → RunEnd
  | 0, s => .ended t z ob s
  | k + 1, s =>
    match step s with
    | .next s' => drainRun t z ob k s'
    | .fault r => .faulted s r
    | .refused r => .refused s r

/-- The run from cycle `t` on, with at most `fuel` more cycles up to the stop cycle. -/
def runFrom : (fuel : Nat) → (t : Nat) → RunHistory → State → RunEnd
  | 0, _, _, _ => .noEnd
  | fuel + 1, t, h, s =>
    match step s with
    | .fault r => .faulted s r
    | .refused r => .refused s r
    | .next s' =>
      if s.stopsHere then drainRun t s.pc (.atStop h s s') (Config.drain - 1) s'
      else runFrom fuel (t + 1) (h.after s) s'

/-- A whole run (R332, R333): image and data placed, reset, clocked to the stop cycle and drained, within MAX_CYCLES. -/
def runProgram (p : Params) (maxCycles : Nat) (image : List Word) (dmem : Memory) : RunEnd :=
  match loadRun p image dmem with
  | some s => runFrom maxCycles 0 .start s
  | none => .notLoaded

end Sys2Proof.Machine
end

