-- ==== Sys2Proof/Machine/Sequential.lean ====
section
/-! DEFINITION. The sequential reading of the CORE (40_integer_register.md R121 (e), 47_pipeline.md R274): the "Effect" line
of each instruction over an architectural state, the machine that runs a program one instruction at a time by those
lines, and the architectural state that the instructions of a pipeline state leave. R274 says that the pipeline and
this machine agree; the step does not use this file. -/

namespace Sys2Proof.Machine

/-- The architectural state of the sequential reading: the address of the next instruction, the registers, the data
memory. -/
structure Arch where
  pc : Word
  x : RegFile
  dmem : Memory
  deriving DecidableEq, Repr

/-- `x[r]` of the sequential reading, with x0 zero (R22). -/
def Arch.reg (a : Arch) (r : RegAddr) : Word := readReg a.x r

/-- `x[rd] <- v; next pc <- pc + 4`, the effect of every instruction that only writes a register. -/
def Arch.setReg (a : Arch) (rd : RegAddr) (v : Word) : Arch :=
  { a with pc := a.pc + 4#32, x := writeReg a.x true rd v }

/-- `if c then next pc <- target else next pc <- pc + 4` (R180). -/
def Arch.branchTo (a : Arch) (c : Bool) (target : Word) : Arch :=
  { a with pc := if c then target else a.pc + 4#32 }

/-- `x[rd] <- pc + 4; next pc <- target` (R200). -/
def Arch.jumpTo (a : Arch) (rd : RegAddr) (target : Word) : Arch :=
  { a with pc := target, x := writeReg a.x true rd (a.pc + 4#32) }

/-- The "Effect" line of each instruction (R123 to R221). Accesses are total here, and the range check is the cycle's own
(R56): the comparison with the pipeline is made for cycles that have a next state (DESIGN CHOICE, safe, log 17). -/
def effect : Instr → Arch → Arch
  | .add rd rs1 rs2, a => a.setReg rd (a.reg rs1 + a.reg rs2)
  | .sub rd rs1 rs2, a => a.setReg rd (a.reg rs1 - a.reg rs2)
  | .sll rd rs1 rs2, a => a.setReg rd (a.reg rs1 <<< ((a.reg rs2).extractLsb' 0 5).toNat)
  | .slt rd rs1 rs2, a => a.setReg rd (if (a.reg rs1).toInt < (a.reg rs2).toInt then 1#32 else 0#32)
  | .xor rd rs1 rs2, a => a.setReg rd (a.reg rs1 ^^^ a.reg rs2)
  | .srl rd rs1 rs2, a => a.setReg rd (a.reg rs1 >>> ((a.reg rs2).extractLsb' 0 5).toNat)
  | .sra rd rs1 rs2, a => a.setReg rd ((a.reg rs1).sshiftRight ((a.reg rs2).extractLsb' 0 5).toNat)
  | .or rd rs1 rs2, a => a.setReg rd (a.reg rs1 ||| a.reg rs2)
  | .and rd rs1 rs2, a => a.setReg rd (a.reg rs1 &&& a.reg rs2)
  | .addi rd rs1 imm, a => a.setReg rd (a.reg rs1 + sext12 imm)
  | .slti rd rs1 imm, a => a.setReg rd (if (a.reg rs1).toInt < (sext12 imm).toInt then 1#32 else 0#32)
  | .slli rd rs1 _ shamt, a => a.setReg rd (a.reg rs1 <<< shamt.toNat)
  | .srli rd rs1 _ shamt, a => a.setReg rd (a.reg rs1 >>> shamt.toNat)
  | .srai rd rs1 _ shamt, a => a.setReg rd ((a.reg rs1).sshiftRight shamt.toNat)
  | .lw rd rs1 imm, a => a.setReg rd (memRead a.dmem (a.reg rs1 + sext12 imm))
  | .sw rs2 rs1 imm, a => { a with pc := a.pc + 4#32, dmem := memWrite a.dmem (a.reg rs1 + sext12 imm) (a.reg rs2) }
  | .beq rs1 rs2 offset, a => a.branchTo (a.reg rs1 == a.reg rs2) (a.pc + sext13 offset)
  | .bne rs1 rs2 offset, a => a.branchTo (a.reg rs1 != a.reg rs2) (a.pc + sext13 offset)
  | .blt rs1 rs2 offset, a => a.branchTo (decide ((a.reg rs1).toInt < (a.reg rs2).toInt)) (a.pc + sext13 offset)
  | .bge rs1 rs2 offset, a => a.branchTo (decide ((a.reg rs1).toInt ≥ (a.reg rs2).toInt)) (a.pc + sext13 offset)
  | .jal rd offset, a => a.jumpTo rd (a.pc + sext21 offset)
  | .jalr rd rs1 imm, a => a.jumpTo rd ((a.reg rs1 + sext12 imm) &&& 0xFFFFFFFE#32)
  | .lui rd imm20, a => a.setReg rd (upper20 imm20)
  | .auipc rd imm20, a => a.setReg rd (a.pc + upper20 imm20)

/-- One instruction of the sequential machine: fetch at pc, decode, do its effect; a word outside the table does nothing
but advance the pc (R240). -/
def seqStep (imem : Memory) (a : Arch) : Arch :=
  match decodeWord (imemRead imem a.pc) with
  | .ok i => effect i a
  | .error _ => { a with pc := a.pc + 4#32 }

/-- `n` instructions of the sequential machine. -/
def seqRun (imem : Memory) : Nat → Arch → Arch
  | 0, a => a
  | n + 1, a => seqRun imem n (seqStep imem a)

/-! ### What the instructions of a pipeline state leave -/

/-- The registers once the instruction in WB has committed (R24). -/
def State.regsAfterWb (s : State) : RegFile := s.nextRegs

/-- The registers once the instructions in WB and MEM have committed: MEM's write-back value is the word it reads in this
cycle, or its ALU result (R266, R268). -/
def State.regsAfterMem (s : State) : RegFile :=
  writeReg s.regsAfterWb s.exmem.ctrl.regWrite s.exmem.rdAddr
    (if s.exmem.ctrl.memToReg then s.memData else s.exmem.aluResult)

/-- The word the instruction in EX will read in MEM, after the store of the instruction in MEM now (R53, R63). -/
def State.exMemData (s : State) : Word :=
  if s.idex.ctrl.memRead then memRead s.nextDmem s.aluOut.result else 0#32

/-- The registers once the instructions in WB, MEM and EX have committed. -/
def State.regsAfterEx (s : State) : RegFile :=
  writeReg s.regsAfterMem s.idex.ctrl.regWrite s.idex.rd
    (if s.idex.ctrl.memToReg then s.exMemData else s.aluOut.result)

/-- The data memory once the stores of the instructions in MEM and EX are made. -/
def State.dmemAfterEx (s : State) : Memory :=
  if s.idex.ctrl.memWrite then memWrite s.nextDmem s.aluOut.result s.fwdB else s.nextDmem

/-- The address of the next instruction in program order after those in EX, MEM and WB: the redirect target when the
instruction in EX redirects; else the address in IF/ID; else, where IF/ID holds its bubble, PC (R264; DEDUCED, safe,
log 19). -/
def State.nextInOrder (s : State) : Word :=
  if s.taken then s.target else if s.ifid = IfId.bubble then s.pc else s.ifid.pc

/-- The architectural state left by every instruction older than the one in ID: the state of R121's sequential reading,
"the register values left by every earlier instruction in program order". -/
def State.arch (s : State) : Arch := ⟨s.nextInOrder, s.regsAfterEx, s.dmemAfterEx⟩

end Sys2Proof.Machine
end

