-- ==== Sys2Proof/Safety.lean ====
section
/-! DEFINITION. What counts as a safe run, and the invariant of the machine that claims about every state rest on. -/

namespace Sys2Proof.Machine

/-- A cycle has a next state: no access of it is out of range (20_memory.md R56, 60_exceptions.md R302). -/
abbrev State.Accessible (s : State) : Prop := s.badAccesses = []

/-- `k` cycles, stopping at the first fault or refusal: a run of the host's machine, on the model's own types. -/
def runCycles : Nat → State → Host.Outcome State Fault Refusal
  | 0, s => .next s
  | k + 1, s =>
    match step s with
    | .next s' => runCycles k s'
    | .fault r => .fault r
    | .refused r => .refused r

/-- `k` cycles from `s` all have a next state: a fault-free run (R274). -/
def SafeFor (k : Nat) (s : State) : Prop := ∃ t, runCycles k s = .next t

/-- The invariant of the CORE: what every state of a run from any boot state satisfies. -/
structure State.Inv (s : State) : Prop where
  /-- The instruction memory ends below the top of the address space, so that a PC is out of range before it wraps
  (R29; DEDUCED, safe, log 21). -/
  imem_capacity : s.params.imemWords < 2 ^ 30
  /-- Both memories keep their canonical form and list only addresses inside their capacity. -/
  imem_wf : s.imem.wf
  dmem_wf : s.dmem.wf
  imem_within : s.imem.within s.params.imemWords
  dmem_within : s.dmem.within s.params.dmemWords
  /-- "The stored X[0] is therefore never changed from its reset value 0" (R24). -/
  x0_zero : storedReg s.x 0#5 = 0#32
  /-- A latched operand named x0 is 0 (R22, R23). -/
  idex_rs1_x0 : s.idex.rs1 = 0#5 → s.idex.rs1Data = 0#32
  idex_rs2_x0 : s.idex.rs2 = 0#5 → s.idex.rs2Data = 0#32
  /-- Every bundle in the pipeline is one the decoder produces (R91). -/
  idex_ctrl : s.idex.ctrl ∈ decoderBundles
  exmem_ctrl : s.exmem.ctrl ∈ decoderBundles
  memwb_ctrl : s.memwb.ctrl ∈ decoderBundles
  /-- IF/ID holds its bubble, or the word at its address with PC one word further (R254, R264, R257). -/
  ifid_fetched : s.ifid = IfId.bubble ∨
    (wordIndex s.ifid.pc < s.params.imemWords ∧ s.ifid.inst = imemRead s.imem s.ifid.pc ∧ s.pc = s.ifid.pc + 4#32)

end Sys2Proof.Machine
end

