-- ==== Sys2Proof/Certificates/Slice0/Obligations.lean ====
section
/-! DEFINITION. The statements for the provers, from the numbered rules of spec/. The words they share stand first.

How an instruction's own effect is said. A cycle moves every instruction one stage on, so what an instruction writes
reaches the register file three cycles after it was decoded. `State.arch s` (Machine/Sequential.lean) is the register
file and data memory as the instructions older than the one in ID leave them, and the address of the next instruction:
the "register values left by every earlier instruction in program order" of R121. An instruction's effect is the
difference it makes to that: from `s.arch` before the cycle in which it is in ID to `t.arch` after it.
`OlderInstructionsCommit` states that this is what the machine's own registers and memory come to hold. That an
instruction's meaning is the cycle with it in ID, and this reading of its effect, are the model's (logs 3, 17 and 19). -/

namespace Sys2Proof.Machine

/-- `i` is the instruction in ID of a state every run stays in, and it advances: no access of the cycle is out of range,
it is not stalled behind a load and not discarded by a redirect. -/
structure Issues (i : Instr) (s : State) : Prop where
  inv : s.Inv
  inId : decodeWord s.ifid.inst = .ok i
  accessible : s.Accessible
  noStall : s.loadUse = false
  noRedirect : s.taken = false

/-- The cycle of `i` has a next state, the instruction memory and the capacities are unchanged, and the architectural
states before and after are related by `effect`. -/
def Completes (i : Instr) (s : State) (effect : Arch → Arch → Prop) : Prop :=
  ∃ t, exec i s = .next t ∧ t.imem = s.imem ∧ t.params = s.params ∧ effect s.arch t.arch

/-- Register `rd` takes `v` (x0 takes nothing), the next instruction is at pc + 4, and nothing else changes. -/
structure WritesOnly (rd : RegAddr) (v : Arch → Word) (a b : Arch) : Prop where
  pc : b.pc = a.pc + 4#32
  reg : ∀ r, b.reg r = if r = rd ∧ r ≠ 0#5 then v a else a.reg r
  mem : ∀ k, readByte b.dmem k = readByte a.dmem k

/-- The whole data word holding byte address `addr a` takes `v a`, the next instruction is at pc + 4, and nothing else
changes: no register and no byte outside the four of that word. -/
structure StoresOnly (addr v : Arch → Word) (a b : Arch) : Prop where
  pc : b.pc = a.pc + 4#32
  reg : ∀ r, b.reg r = a.reg r
  word : memRead b.dmem (addr a) = v a
  mem : ∀ k, k < 4 * wordIndex (addr a) ∨ 4 * wordIndex (addr a) + 4 ≤ k → readByte b.dmem k = readByte a.dmem k

/-- The next instruction is at `target a` if the condition holds, else at pc + 4; no register or byte changes. -/
structure BranchesOnly (taken : Arch → Prop) (target : Arch → Word) (a b : Arch) : Prop where
  pc_taken : taken a → b.pc = target a
  pc_notTaken : ¬taken a → b.pc = a.pc + 4#32
  reg : ∀ r, b.reg r = a.reg r
  mem : ∀ k, readByte b.dmem k = readByte a.dmem k

/-- Register `rd` takes pc + 4 (x0 takes nothing), the next instruction is at `target a`, and nothing else changes. -/
structure JumpsOnly (rd : RegAddr) (target : Arch → Word) (a b : Arch) : Prop where
  pc : b.pc = target a
  reg : ∀ r, b.reg r = if r = rd ∧ r ≠ 0#5 then a.pc + 4#32 else a.reg r
  mem : ∀ k, readByte b.dmem k = readByte a.dmem k

/-- The instruction in ID has left nothing behind: from `s` to `t` the architectural state, the instruction memory and
the capacities are the same and EX has a bubble, and after a stall the instruction is still in ID with PC unmoved. -/
structure LeavesNoEffect (s t : State) : Prop where
  arch : t.arch = s.arch
  imem : t.imem = s.imem
  params : t.params = s.params
  bubble : t.idex = .bubble
  stalled : s.loadUse = true → t.ifid = s.ifid ∧ t.pc = s.pc

/-- `k` cycles lead from `s` to `t`, and in none of them the instruction in MEM stores to the data word with index `w`. -/
def RunsWithoutStoreTo (w : Nat) : Nat → State → State → Prop
  | 0, s, t => s = t
  | k + 1, s, t => ¬(s.exmem.ctrl.memWrite = true ∧ wordIndex s.exmem.aluResult = w) ∧
      ∃ u, step s = .next u ∧ RunsWithoutStoreTo w k u t

/-- The architectural state at reset: pc 0 and every register 0, over a data memory. -/
def Arch.initial (dmem : Memory) : Arch := ⟨0#32, Vector.replicate 32 0#32, dmem⟩

end Sys2Proof.Machine

open Sys2Proof Sys2Proof.Machine

/-! ### Encoding and decoding -/

/-- Decoding an encoded instruction gives it back, for every instruction and every operand value an encoding admits
(R82 to R97). -/
def Obligations.DecodeOfEncodeIsIdentity : Prop :=
  ∀ i : Instr, i.WellFormed → decodeWord (encode i) = .ok i

/-- Decoding drops only the bits the spec says the decoder ignores (R93 to R95): what a word decodes to is well formed,
and its encoding agrees with the word on every examined bit. -/
def Obligations.DecodeDropsOnlyIgnoredBits : Prop :=
  ∀ (w : Word) (i : Instr), decodeWord w = .ok i →
    i.WellFormed ∧ encode i &&& examinedBits i = w &&& examinedBits i

/-- A word decodes to an instruction exactly when a row of the opcode table matches it, and to the instruction of that row:
so no word matches two rows, and "any word not matched by a row" is the no-op (R240). -/
def Obligations.DecodingFollowsTheOpcodeTable : Prop :=
  ∀ w : Word,
    (∀ i, decodeWord w = .ok i → ∃ row ∈ opcodeTable, row.mnemonic = i.mnemonic ∧ row.matchesWord w = true) ∧
    (∀ row ∈ opcodeTable, row.matchesWord w = true → ∃ i, decodeWord w = .ok i ∧ i.mnemonic = row.mnemonic)

/-- Words written out in 95_test_vectors.md, one per family, decode to the instructions they stand for. -/
def Obligations.SampleWordsDecode : Prop :=
  decodeWord 0x403100B3#32 = .ok (.sub 1 2 3) ∧ decodeWord 0xFFF10093#32 = .ok (.addi 1 2 0xFFF#12) ∧
  decodeWord 0x00812083#32 = .ok (.lw 1 2 8#12) ∧ decodeWord 0xFE312E23#32 = .ok (.sw 3 2 0xFFC#12) ∧
  decodeWord 0xFE209EE3#32 = .ok (.bne 1 2 0x1FFC#13) ∧ decodeWord 0xFF9FF06F#32 = .ok (.jal 0 0x1FFFF8#21) ∧
  decodeWord 0x005100E7#32 = .ok (.jalr 1 2 5#12) ∧ decodeWord 0x123452B7#32 = .ok (.lui 5 0x12345#20) ∧
  decodeWord 0x00001297#32 = .ok (.auipc 5 1#20) ∧ decodeWord 0x00000073#32 = .error (.unrecognisedOpcode 0x73#7)

/-- The immediates are the sign-extended fields of R83 to R87, in the ranges those rules give. -/
def Obligations.ImmediateFormsAndRanges : Prop :=
  ∀ w : Word,
    (immI w = (w.extractLsb' 20 12).signExtend 32 ∧ -2048 ≤ (immI w).toInt ∧ (immI w).toInt ≤ 2047) ∧
    (immS w = (w.extractLsb' 25 7 ++ w.extractLsb' 7 5).signExtend 32 ∧
      -2048 ≤ (immS w).toInt ∧ (immS w).toInt ≤ 2047) ∧
    (immB w = (w.extractLsb' 31 1 ++ w.extractLsb' 7 1 ++ w.extractLsb' 25 6 ++ w.extractLsb' 8 4 ++ 0#1).signExtend 32 ∧
      (immB w).toInt % 2 = 0 ∧ -4096 ≤ (immB w).toInt ∧ (immB w).toInt ≤ 4094) ∧
    (immU w = w.extractLsb' 12 20 ++ 0#12) ∧
    (immJ w = (w.extractLsb' 31 1 ++ w.extractLsb' 12 8 ++ w.extractLsb' 20 1 ++ w.extractLsb' 21 10 ++ 0#1).signExtend 32 ∧
      (immJ w).toInt % 2 = 0 ∧ -1048576 ≤ (immJ w).toInt ∧ (immJ w).toInt ≤ 1048574)

/-- funct3 is not examined for LOAD, STORE and JALR (R93): the eight funct3 values of one such word decode alike. -/
def Obligations.LoadStoreJalrIgnoreFunct3 : Prop :=
  ∀ (imm : BitVec 12) (rs2 rs1 rd : RegAddr) (f3 : BitVec 3),
    decodeWord (encodeI imm rs1 f3 rd opLoad) = .ok (.lw rd rs1 imm) ∧
    decodeWord (encodeS imm rs2 rs1 f3 opStore) = .ok (.sw rs2 rs1 imm) ∧
    decodeWord (encodeI imm rs1 f3 rd opJalr) = .ok (.jalr rd rs1 imm)

/-- The RV32M words (funct7 0000001) run as base operations on the same registers, and MULHU as a no-op (R132). -/
def Obligations.MultiplyDivideWordsRunAsBaseOperations : Prop :=
  ∀ rd rs1 rs2 : RegAddr,
    let word := fun f3 : BitVec 3 => encodeR 0b0000001#7 rs2 rs1 f3 rd opRType
    decodeWord (word 0b000#3) = .ok (.add rd rs1 rs2) ∧ decodeWord (word 0b001#3) = .ok (.sll rd rs1 rs2) ∧
    decodeWord (word 0b010#3) = .ok (.slt rd rs1 rs2) ∧
    decodeWord (word 0b011#3) = .error (.unsupportedFunct3 opRType 0b011#3) ∧
    decodeWord (word 0b100#3) = .ok (.xor rd rs1 rs2) ∧ decodeWord (word 0b101#3) = .ok (.srl rd rs1 rs2) ∧
    decodeWord (word 0b110#3) = .ok (.or rd rs1 rs2) ∧ decodeWord (word 0b111#3) = .ok (.and rd rs1 rs2)

/-- The system, fence and atomic words, and the RV32I words the decoder does not list, are no row of the table and decode
to the default output (R65, R66, R241, R308): SYSTEM 1110011, MISC-MEM 0001111, AMO 0101111; SLTU; SLTIU, XORI, ORI,
ANDI; BLTU, BGEU and the two unassigned branch funct3 values. -/
def Obligations.UnlistedWordsDecodeToTheDefaultOutput : Prop :=
  ∀ w : Word,
    (opcodeField w = 0b1110011#7 ∨ opcodeField w = 0b0001111#7 ∨ opcodeField w = 0b0101111#7 ∨
      (opcodeField w = opRType ∧ funct3Field w = 0b011#3) ∨
      (opcodeField w = opIAlu ∧ funct3Field w ∈ ([0b011#3, 0b100#3, 0b110#3, 0b111#3] : List (BitVec 3))) ∨
      (opcodeField w = opBranch ∧ funct3Field w ∈ ([0b010#3, 0b011#3, 0b110#3, 0b111#3] : List (BitVec 3)))) →
    (∀ i, decodeWord w ≠ .ok i) ∧ decodeSignals w = idOutDefault w

/-! ### The step -/

/-- A step is the cycle of the instruction the word in IF/ID decodes to, and of the no-op where it decodes to none. -/
def Obligations.StepRunsTheDecodedInstruction : Prop :=
  ∀ s : State,
    (∀ i, decodeWord s.ifid.inst = .ok i → step s = exec i s) ∧
    (∀ r, decodeWord s.ifid.inst = .error r → step s = execNoOp s.ifid.inst s)

/-- The word at PC is fetched in one cycle and run in the next: where a cycle neither stalls nor redirects, the word at PC,
whatever it is, goes to IF/ID with its address and PC moves on by 4; the next step is `exec i` if the word decodes to
`i`, and the no-op's cycle if it decodes to no instruction (R254, R255, R264, R240). -/
def Obligations.FetchedWordRunsInTheNextStep : Prop :=
  ∀ s t : State, s.loadUse = false → s.taken = false → step s = .next t →
    t.ifid = ⟨s.pc, imemRead s.imem s.pc⟩ ∧ t.pc = s.pc + 4#32 ∧
    (∀ i, decodeWord (imemRead s.imem s.pc) = .ok i → step t = exec i t) ∧
    (∀ r, decodeWord (imemRead s.imem s.pc) = .error r → step t = execNoOp (imemRead s.imem s.pc) t)

/-- What ID hands to EX (R255): in a cycle that neither stalls nor redirects, ID/EX takes the address, the two register
reads, and the decoder's bundle, immediate and register addresses of the word in IF/ID. -/
def Obligations.DecodeStageFillsIdEx : Prop :=
  ∀ s t : State, s.loadUse = false → s.taken = false → step s = .next t →
    t.idex = ⟨s.ifid.pc, s.idRead (rs1Field s.ifid.inst), s.idRead (rs2Field s.ifid.inst),
      (decodeSignals s.ifid.inst).imm, rs1Field s.ifid.inst, rs2Field s.ifid.inst, rdField s.ifid.inst,
      (decodeSignals s.ifid.inst).ctrl⟩

/-- The control bits and the immediate that reach EX, by opcode class (R91, R92, R97): the word in ID sets exactly the
bits of its class, and a word outside the opcode table sets none. -/
def Obligations.ControlBitsFollowTheOpcodeClass : Prop :=
  ∀ s t : State, s.loadUse = false → s.taken = false → step s = .next t →
    let w := s.ifid.inst
    let op := opcodeField w
    let listed := ∃ i, decodeWord w = .ok i
    (t.idex.ctrl.regWrite = true ↔
      listed ∧ op ∈ [opRType, opIAlu, opLoad, opJal, opJalr, opLui, opAuipc]) ∧
    (t.idex.ctrl.memRead = true ↔ op = opLoad) ∧ (t.idex.ctrl.memToReg = true ↔ op = opLoad) ∧
    (t.idex.ctrl.memWrite = true ↔ op = opStore) ∧
    (t.idex.ctrl.aluSrcImmediate = true ↔ listed ∧ op ∈ [opIAlu, opLoad, opStore, opJalr]) ∧
    (t.idex.ctrl.branch = true ↔ listed ∧ op = opBranch) ∧
    (t.idex.ctrl.jump = true ↔ op = opJal ∨ op = opJalr) ∧
    (¬listed → t.idex.ctrl.aluOp = .nop ∧ t.idex.imm = 0#32) ∧
    (listed →
      (op = opRType → t.idex.imm = 0#32) ∧
      (op = opIAlu ∨ op = opLoad ∨ op = opJalr → t.idex.imm = immI w) ∧
      (op = opStore → t.idex.imm = immS w) ∧ (op = opBranch → t.idex.imm = immB w) ∧
      (op = opJal → t.idex.imm = immJ w) ∧ (op = opLui ∨ op = opAuipc → t.idex.imm = immU w))

/-- The state with a word placed where the next step takes its instruction runs exactly that instruction (the placing is
the model's, log 4). -/
def Obligations.PlacedWordRunsInTheVeryNextStep : Prop :=
  ∀ (s : State) (i : Instr), i.WellFormed →
    decodeTableWord 32 (encode i).toNat = some i ∧
    step (s.withFetchWord 32 (encode i).toNat) = exec i (s.withFetchWord 32 (encode i).toNat)

/-- The step is the cycle of R271 over `decode(w)`: the meanings of the 24 instructions and the no-op together are the
one decoder function of R88 to R97. -/
def Obligations.StepIsTheCycleOfTheDecoderFunction : Prop :=
  ∀ s : State, step s = cycle (decodeSignals s.ifid.inst) s

/-- A cycle has a next state exactly when the fetch is in range and the data access of the instruction in MEM, if it makes
one, is in range; it is never refused: "No condition in this core is fatal" (R56, R300, R302). -/
def Obligations.CycleStopsOnlyOnAnOutOfRangeAccess : Prop :=
  ∀ s : State,
    ((∃ t, step s = .next t) ↔
      wordIndex s.pc < s.params.imemWords ∧
      (s.exmem.ctrl.memRead = true ∨ s.exmem.ctrl.memWrite = true →
        wordIndex s.exmem.aluResult < s.params.dmemWords)) ∧
    ∀ r, step s ≠ .refused r

/-- A faulting cycle records each of its out-of-range accesses and no other (R56, R271; the list is the model's, log 5). -/
def Obligations.FaultRecordsEveryOutOfRangeAccess : Prop :=
  ∀ (s : State) (l : List Access), step s = .fault (.outOfRange l) →
    ∀ acc : Access, acc ∈ l ↔
      (acc = ⟨.fetch, s.pc⟩ ∧ s.params.imemWords ≤ wordIndex s.pc) ∨
      (acc = ⟨.load, s.exmem.aluResult⟩ ∧ s.exmem.ctrl.memRead = true ∧
        s.params.dmemWords ≤ wordIndex s.exmem.aluResult) ∨
      (acc = ⟨.store, s.exmem.aluResult⟩ ∧ s.exmem.ctrl.memWrite = true ∧
        s.params.dmemWords ≤ wordIndex s.exmem.aluResult)

/-- What no cycle of any instruction changes: the instruction memory and the capacities; every stored register but the one the instruction in
WB writes; every byte of data memory outside the word the instruction in MEM stores to (R24, R52, R54). -/
def Obligations.CycleFrameForEveryInstruction : Prop :=
  ∀ (i : Instr) (s t : State), exec i s = .next t →
    t.imem = s.imem ∧ t.params = s.params ∧
    (∀ r, ¬(s.memwb.ctrl.regWrite = true ∧ r = s.memwb.rdAddr) → storedReg t.x r = storedReg s.x r) ∧
    (s.exmem.ctrl.memWrite = false → ∀ k, readByte t.dmem k = readByte s.dmem k) ∧
    (∀ k, k < 4 * wordIndex s.exmem.aluResult ∨ 4 * wordIndex s.exmem.aluResult + 4 ≤ k →
      readByte t.dmem k = readByte s.dmem k)

/-! ### Registers -/

/-- x0 reads as zero in every cycle, also as a forwarded operand and right after a write to it is attempted, and a write
to it is discarded (R22). -/
def Obligations.RegisterZeroReadsZero : Prop :=
  ∀ s t : State, s.Inv → step s = .next t →
    s.idRead 0#5 = 0#32 ∧ t.idRead 0#5 = 0#32 ∧
    (s.idex.rs1 = 0#5 → s.src1 = 0#32) ∧ (s.idex.rs2 = 0#5 → s.fwdB = 0#32) ∧
    (s.memwb.rdAddr = 0#5 → t.x = s.x) ∧ storedReg t.x 0#5 = 0#32

/-- The write port (R24): only the instruction in WB writes, only where regWrite is set and rd ≠ 0, and every other
stored register keeps its value; the stored X[0] therefore stays 0. -/
def Obligations.WritePortWritesOneRegister : Prop :=
  ∀ s t : State, step s = .next t →
    (s.memwb.ctrl.regWrite = true → s.memwb.rdAddr ≠ 0#5 → storedReg t.x s.memwb.rdAddr = s.wbData) ∧
    (∀ r, ¬(s.memwb.ctrl.regWrite = true ∧ s.memwb.rdAddr ≠ 0#5 ∧ r = s.memwb.rdAddr) →
      storedReg t.x r = storedReg s.x r) ∧
    (storedReg s.x 0#5 = 0#32 → storedReg t.x 0#5 = 0#32)

/-- The read port (R23): x0 first, then the incoming write, then the stored value; so a read in ID is the value the
register file holds after the cycle. -/
def Obligations.ReadPortSeesTheIncomingWrite : Prop :=
  ∀ s t : State, step s = .next t → ∀ a : RegAddr,
    (a = 0#5 → s.idRead a = 0#32) ∧
    (a ≠ 0#5 → s.memwb.ctrl.regWrite = true → s.memwb.rdAddr = a → s.idRead a = s.wbData) ∧
    (a ≠ 0#5 → ¬(s.memwb.ctrl.regWrite = true ∧ s.memwb.rdAddr = a) → s.idRead a = storedReg s.x a) ∧
    s.idRead a = readReg t.x a

/-! ### Reset and boot -/

/-- After reset every register is 0 and each pipeline register holds its bubble (R41, R42). -/
def Obligations.ResetZeroesRegistersAndLatches : Prop :=
  (∀ r, storedReg State.reset.x r = 0#32) ∧
  State.reset.ifid = ⟨0#32, 0#32⟩ ∧
  State.reset.idex = ⟨0#32, 0#32, 0#32, 0#32, 0#5, 0#5, 0#5, .off⟩ ∧
  State.reset.exmem = ⟨0#32, 0#32, 0#32, 0#5, .off⟩ ∧
  State.reset.memwb = ⟨0#32, 0#32, 0#32, 0#5, .off⟩

/-- A cycle with rst = 1 ignores the state and yields S_0, at the reset PC 0 (decision D1 of the spec), with both memories and their capacities as they were; a cycle
with rst = 0 is a step (R330, decision D20 of the spec; log 9). -/
def Obligations.ResetInputYieldsTheResetState : Prop :=
  ∀ s : State, clock false s = step s ∧ ∃ t, clock true s = .next t ∧
    t.pc = 0#32 ∧ t.x = State.reset.x ∧ t.ifid = .bubble ∧ t.idex = .bubble ∧ t.exmem = .bubble ∧ t.memwb = .bubble ∧
    t.imem = s.imem ∧ t.dmem = s.dmem ∧ t.params = s.params

/-- The invariant holds at reset and at the start of every run, for all capacities, whatever canonical image and data
are placed. That the instruction memory ends below the top of the address space is the model's reading of R29 (log 21). -/
def Obligations.InvariantHoldsAtBoot : Prop :=
  State.reset.Inv ∧
  ∀ (p : Params) (imem dmem : Memory), p.imemWords < 2 ^ 30 → imem.wf → dmem.wf → imem.within p.imemWords →
    dmem.within p.dmemWords → (State.boot p imem dmem).Inv

/-- What a run starts with (R7, R59, R332): an image is placed word by word from word 0 with 0 in every word beyond it, for
whatever capacities; the data are those given, and the CORE is at reset. There is no run exactly when the image has more
than IMEM_WORDS words or the data are not DMEM_WORDS words. -/
def Obligations.ImageIsPlacedFromWordZero : Prop :=
  ∀ (p : Params) (image : List Word) (dmem : Memory),
    (loadRun p image dmem = none ↔ p.imemWords < image.length ∨ ¬(dmem.wf ∧ dmem.within p.dmemWords)) ∧
    ∀ s, loadRun p image dmem = some s →
      s = State.boot p s.imem dmem ∧ s.imem.wf ∧ s.imem.within p.imemWords ∧
      ∀ i, readWord s.imem i = image.getD i 0#32

/-- Every step keeps the invariant, from every state that meets it: canonical memories inside their capacity, X[0] = 0,
operands named x0 hold 0, every bundle in the pipeline is one the decoder produces, and IF/ID holds its bubble or the
instruction-memory word at its address with PC one word further. -/
def Obligations.StepKeepsTheInvariant : Prop :=
  ∀ s t : State, s.Inv → step s = .next t → t.Inv

/-- Cycle 0 of every run (R331): the other stages hold bubbles, so no hazard, forwarding or redirect condition is true, and
the word at address 0, the reset PC of decision D1 (log 6), enters IF/ID. -/
def Obligations.FirstCycleFetchesWordZero : Prop :=
  ∀ (p : Params) (imem dmem : Memory), 0 < p.imemWords → ∃ t, step (State.boot p imem dmem) = .next t ∧
    (State.boot p imem dmem).loadUse = false ∧ (State.boot p imem dmem).taken = false ∧
    (∀ r, (State.boot p imem dmem).forwardSel r = .latched) ∧
    t.pc = 4#32 ∧ t.ifid = ⟨0#32, readWord imem 0⟩ ∧ t.idex = .bubble ∧ t.exmem = .bubble ∧ t.memwb = .bubble ∧
    t.x = State.reset.x ∧ t.dmem = dmem

/-! ### Data memory -/

/-- A store replaces the whole word of its address and no other word (R54); out of range it has no next state. -/
def Obligations.StoreReplacesExactlyItsWord : Prop :=
  ∀ s : State, s.dmem.wf → s.exmem.ctrl.memWrite = true →
    (s.params.dmemWords ≤ wordIndex s.exmem.aluResult →
      ∃ l, step s = .fault (.outOfRange l) ∧ ⟨.store, s.exmem.aluResult⟩ ∈ l) ∧
    (∀ t, step s = .next t → ∀ addr : Word,
      memRead t.dmem addr =
        if wordIndex addr = wordIndex s.exmem.aluResult then s.exmem.rs2Data else memRead s.dmem addr)

/-- Store then load, at every distance (R64): after a store, cycles that store nothing to its word, and then a load from
that word, the loaded word is the stored word. -/
def Obligations.LoadReturnsTheLatestStore : Prop :=
  ∀ (k : Nat) (s t u v : State), s.dmem.wf → s.exmem.ctrl.memWrite = true → step s = .next t →
    RunsWithoutStoreTo (wordIndex s.exmem.aluResult) k t u →
    u.exmem.ctrl.memRead = true → wordIndex u.exmem.aluResult = wordIndex s.exmem.aluResult → step u = .next v →
    v.memwb.memData = s.exmem.rs2Data

/-- The low two address bits are ignored by every access (R57), and a cycle that does not redirect, sequential fetch or
stall, keeps those of PC (R28). -/
def Obligations.LowAddressBitsSelectNothing : Prop :=
  (∀ (m : Memory) (a v : Word),
    imemRead m a = imemRead m (a &&& 0xFFFFFFFC#32) ∧ memRead m a = memRead m (a &&& 0xFFFFFFFC#32) ∧
    memWrite m a v = memWrite m (a &&& 0xFFFFFFFC#32) v) ∧
  (∀ s t : State, s.taken = false → step s = .next t → t.pc.extractLsb' 0 2 = s.pc.extractLsb' 0 2)

/-- The write observation (R55): asserted exactly in the cycles that write, and then with the byte address that EX/MEM
presents, all 32 bits of it, and the store data; the memory
after the cycle is the memory before with exactly that write made. That the observation is 0 without a write is decision
D14 of the spec (log 11). -/
def Obligations.WriteObservationTellsTheWholeWrite : Prop :=
  ∀ s t : State, step s = .next t →
    ((s.observe.write.wrote = true ↔ s.exmem.ctrl.memWrite = true) ∧
     (s.observe.write.wrote = true →
      s.observe.write.addr = s.exmem.aluResult ∧ s.observe.write.data = s.exmem.rs2Data) ∧
     (s.observe.write.wrote = false → s.observe.write.addr = 0#32 ∧ s.observe.write.data = 0#32) ∧
     t.dmem = if s.observe.write.wrote then memWrite s.dmem s.observe.write.addr s.observe.write.data else s.dmem)

/-! ### Hazards, forwarding, redirect -/

/-- Forwarding has its priority order (R258): EX/MEM first, then MEM/WB, then the latched value, and never for x0. -/
def Obligations.ForwardingTakesTheNearestWriter : Prop :=
  ∀ (s : State) (r : RegAddr) (v : Word),
    (s.exmem.ctrl.regWrite = true → s.exmem.rdAddr = r → r ≠ 0#5 → s.forward r v = s.exmem.aluResult) ∧
    (¬(s.exmem.ctrl.regWrite = true ∧ s.exmem.rdAddr = r) →
      s.memwb.ctrl.regWrite = true → s.memwb.rdAddr = r → r ≠ 0#5 → s.forward r v = s.wbData) ∧
    (¬(s.exmem.ctrl.regWrite = true ∧ s.exmem.rdAddr = r) → ¬(s.memwb.ctrl.regWrite = true ∧ s.memwb.rdAddr = r) →
      s.forward r v = v) ∧
    s.forward 0#5 v = v

/-- A load-use hazard stalls for exactly one cycle (R257): PC and IF/ID hold, ID/EX gets a bubble, the next cycle does not
stall, and one cycle later the consumer is in EX with the load in MEM/WB and takes the loaded word by forwarding. -/
def Obligations.LoadUseStallsExactlyOneCycle : Prop :=
  ∀ s t u : State, s.Inv → s.loadUse = true → step s = .next t → step t = .next u →
    t.pc = s.pc ∧ t.ifid = s.ifid ∧ t.idex = .bubble ∧ t.loadUse = false ∧ t.taken = false ∧
    u.idex.pc = s.ifid.pc ∧ u.idex.rs1 = rs1Field s.ifid.inst ∧ u.idex.rs2 = rs2Field s.ifid.inst ∧
    u.memwb.rdAddr = s.idex.rd ∧ u.memwb.memData = memRead t.dmem s.aluOut.result ∧
    (u.idex.rs1 = s.idex.rd → u.src1 = memRead t.dmem s.aluOut.result) ∧
    (u.idex.rs2 = s.idex.rd → u.fwdB = memRead t.dmem s.aluOut.result)

/-- A taken branch or jump in EX redirects PC and flushes IF/ID and ID/EX in the same cycle, and moves on itself (R262);
in the next cycle the word at the target is fetched. -/
def Obligations.RedirectFlushesTheTwoYoungerInstructions : Prop :=
  ∀ s t : State, s.taken = true → step s = .next t →
    t.pc = s.target ∧ t.ifid = .bubble ∧ t.idex = .bubble ∧
    t.exmem.pc = s.idex.pc ∧ t.exmem.rdAddr = s.idex.rd ∧ t.exmem.ctrl = s.idex.ctrl ∧
    ∀ u, step t = .next u → u.ifid = ⟨s.target, imemRead s.imem s.target⟩

/-- The redirect is what the control bits say (R262): `taken` is a branch whose condition holds, or a jump. -/
def Obligations.RedirectAgreesWithTheControlBits : Prop :=
  ∀ s : State, s.Inv →
    (s.taken = true ↔
      (s.idex.ctrl.branch = true ∧
        ((s.idex.ctrl.aluOp = .beq ∧ s.src1 = s.src2) ∨ (s.idex.ctrl.aluOp = .bne ∧ s.src1 ≠ s.src2) ∨
         (s.idex.ctrl.aluOp = .blt ∧ s.src1.toInt < s.src2.toInt) ∨
         (s.idex.ctrl.aluOp = .bge ∧ s.src1.toInt ≥ s.src2.toInt))) ∨
      s.idex.ctrl.jump = true)

/-- A load-use stall and a redirect never fall in the same cycle (R275). -/
def Obligations.StallAndRedirectNeverCoincide : Prop :=
  ∀ s : State, s.Inv → ¬(s.taken = true ∧ s.loadUse = true)

/-- Forwarding source 1 never hands out a load's address (R276): after any cycle that leaves a load in EX/MEM, neither
selector of the instruction in ID/EX chooses EX/MEM. -/
def Obligations.ForwardingNeverTakesALoadAddress : Prop :=
  ∀ s t : State, step s = .next t → t.exmem.ctrl.memRead = true →
    t.forwardSel t.idex.rs1 ≠ .exMem ∧ t.forwardSel t.idex.rs2 ≠ .exMem

/-- The next PC (R264): the target on a redirect, the same PC on a stall, else PC + 4 modulo 2^32. -/
def Obligations.NextPcFollowsTheRedirectAndTheStall : Prop :=
  ∀ s t : State, step s = .next t →
    (s.taken = true → t.pc = s.target) ∧
    (s.taken = false → s.loadUse = true → t.pc = s.pc) ∧
    (s.taken = false → s.loadUse = false → t.pc = s.pc + 4#32)

/-- EX/MEM and MEM/WB are never stalled and never flushed (R269): in every cycle the instruction in EX moves to MEM with
its ALU result and forwarded store data, and the one in MEM to WB with the word it read. That EX/MEM is not held across a
load-use stall is decision D7 of the spec (log 7), and that memData is 0 without a read decision D8 (log 11). -/
def Obligations.LaterStagesAdvanceInEveryCycle : Prop :=
  ∀ s t : State, step s = .next t →
    t.exmem = ⟨s.idex.pc, s.aluOut.result, s.fwdB, s.idex.rd, s.idex.ctrl⟩ ∧
    t.memwb = ⟨s.exmem.pc, s.exmem.aluResult,
      if s.exmem.ctrl.memRead then memRead s.dmem s.exmem.aluResult else 0#32, s.exmem.rdAddr, s.exmem.ctrl⟩

/-- A bubble never acts and a discarded instruction never acts (R273): from the cycle of a redirect on, the two slots it
flushed, the older in ID/EX and the younger in IF/ID, carry the all-false bundle through EX, MEM and WB, and an
all-false bundle in a stage has no effect there. -/
def Obligations.DiscardedInstructionsNeverAct : Prop :=
  (∀ s t : State, step s = .next t →
    (s.idex.ctrl = .off → s.taken = false) ∧
    (s.exmem.ctrl = .off → t.dmem = s.dmem ∧ s.writeObs.wrote = false ∧ s.badLoad = [] ∧ s.badStore = []) ∧
    (s.memwb.ctrl = .off → t.x = s.x)) ∧
  (∀ s t u v w : State, s.taken = true → step s = .next t → step t = .next u → step u = .next v → step v = .next w →
    (t.idex.ctrl = .off ∧ u.exmem.ctrl = .off ∧ v.memwb.ctrl = .off) ∧
    (u.idex.ctrl = .off ∧ v.exmem.ctrl = .off ∧ w.memwb.ctrl = .off))

/-! ### What each instruction does -/

/-- The nine R-type instructions (R122 to R131): each completes and writes its result to rd and nothing else. -/
def Obligations.RegisterRegisterResults : Prop :=
  ∀ (rd rs1 rs2 : RegAddr) (s : State),
    (Issues (.add rd rs1 rs2) s →
      Completes (.add rd rs1 rs2) s (WritesOnly rd fun a => a.reg rs1 + a.reg rs2)) ∧
    (Issues (.sub rd rs1 rs2) s →
      Completes (.sub rd rs1 rs2) s (WritesOnly rd fun a => a.reg rs1 - a.reg rs2)) ∧
    (Issues (.sll rd rs1 rs2) s →
      Completes (.sll rd rs1 rs2) s (WritesOnly rd fun a => a.reg rs1 <<< ((a.reg rs2).toNat % 32))) ∧
    (Issues (.slt rd rs1 rs2) s →
      Completes (.slt rd rs1 rs2) s
        (WritesOnly rd fun a => if (a.reg rs1).toInt < (a.reg rs2).toInt then 1#32 else 0#32)) ∧
    (Issues (.xor rd rs1 rs2) s →
      Completes (.xor rd rs1 rs2) s (WritesOnly rd fun a => a.reg rs1 ^^^ a.reg rs2)) ∧
    (Issues (.srl rd rs1 rs2) s →
      Completes (.srl rd rs1 rs2) s (WritesOnly rd fun a => a.reg rs1 >>> ((a.reg rs2).toNat % 32))) ∧
    (Issues (.sra rd rs1 rs2) s →
      Completes (.sra rd rs1 rs2) s (WritesOnly rd fun a => (a.reg rs1).sshiftRight ((a.reg rs2).toNat % 32))) ∧
    (Issues (.or rd rs1 rs2) s →
      Completes (.or rd rs1 rs2) s (WritesOnly rd fun a => a.reg rs1 ||| a.reg rs2)) ∧
    (Issues (.and rd rs1 rs2) s →
      Completes (.and rd rs1 rs2) s (WritesOnly rd fun a => a.reg rs1 &&& a.reg rs2))

/-- The five I-ALU instructions (R140 to R145): each completes and writes its result to rd and nothing else. -/
def Obligations.RegisterImmediateResults : Prop :=
  ∀ (rd rs1 : RegAddr) (imm : BitVec 12) (funct7 : BitVec 7) (shamt : BitVec 5) (s : State),
    (Issues (.addi rd rs1 imm) s →
      Completes (.addi rd rs1 imm) s (WritesOnly rd fun a => a.reg rs1 + imm.signExtend 32)) ∧
    (Issues (.slti rd rs1 imm) s →
      Completes (.slti rd rs1 imm) s
        (WritesOnly rd fun a => if (a.reg rs1).toInt < imm.toInt then 1#32 else 0#32)) ∧
    (Issues (.slli rd rs1 funct7 shamt) s →
      Completes (.slli rd rs1 funct7 shamt) s (WritesOnly rd fun a => a.reg rs1 <<< shamt.toNat)) ∧
    (Issues (.srli rd rs1 funct7 shamt) s →
      Completes (.srli rd rs1 funct7 shamt) s (WritesOnly rd fun a => a.reg rs1 >>> shamt.toNat)) ∧
    (Issues (.srai rd rs1 funct7 shamt) s →
      Completes (.srai rd rs1 funct7 shamt) s (WritesOnly rd fun a => (a.reg rs1).sshiftRight shamt.toNat))

/-- LW (R161): it completes and writes the data word at `x[rs1] + sext_12(imm)` to rd and nothing else. -/
def Obligations.LoadWordResult : Prop :=
  ∀ (rd rs1 : RegAddr) (imm : BitVec 12) (s : State), Issues (.lw rd rs1 imm) s →
    Completes (.lw rd rs1 imm) s (WritesOnly rd fun a => memRead a.dmem (a.reg rs1 + imm.signExtend 32))

/-- SW (R162): it completes and stores `x[rs2]` to the data word at `x[rs1] + sext_12(imm)` and nothing else. -/
def Obligations.StoreWordResult : Prop :=
  ∀ (rs2 rs1 : RegAddr) (imm : BitVec 12) (s : State), Issues (.sw rs2 rs1 imm) s →
    Completes (.sw rs2 rs1 imm) s (StoresOnly (fun a => a.reg rs1 + imm.signExtend 32) fun a => a.reg rs2)

/-- The four branches (R180 to R184): each completes; the next instruction is at pc + offset if its condition holds and at
pc + 4 otherwise; nothing else changes. -/
def Obligations.BranchResults : Prop :=
  ∀ (rs1 rs2 : RegAddr) (offset : BitVec 13) (s : State),
    (Issues (.beq rs1 rs2 offset) s →
      Completes (.beq rs1 rs2 offset) s
        (BranchesOnly (fun a => a.reg rs1 = a.reg rs2) fun a => a.pc + offset.signExtend 32)) ∧
    (Issues (.bne rs1 rs2 offset) s →
      Completes (.bne rs1 rs2 offset) s
        (BranchesOnly (fun a => a.reg rs1 ≠ a.reg rs2) fun a => a.pc + offset.signExtend 32)) ∧
    (Issues (.blt rs1 rs2 offset) s →
      Completes (.blt rs1 rs2 offset) s
        (BranchesOnly (fun a => (a.reg rs1).toInt < (a.reg rs2).toInt) fun a => a.pc + offset.signExtend 32)) ∧
    (Issues (.bge rs1 rs2 offset) s →
      Completes (.bge rs1 rs2 offset) s
        (BranchesOnly (fun a => (a.reg rs1).toInt ≥ (a.reg rs2).toInt) fun a => a.pc + offset.signExtend 32))

/-- JAL and JALR (R200 to R202): each completes, writes pc + 4 to rd, and continues at its target; JALR clears bit 0 of the
target and uses the old rs1. -/
def Obligations.JumpResults : Prop :=
  ∀ (rd rs1 : RegAddr) (imm : BitVec 12) (offset : BitVec 21) (s : State),
    (Issues (.jal rd offset) s →
      Completes (.jal rd offset) s (JumpsOnly rd fun a => a.pc + offset.signExtend 32)) ∧
    (Issues (.jalr rd rs1 imm) s →
      Completes (.jalr rd rs1 imm) s (JumpsOnly rd fun a => (a.reg rs1 + imm.signExtend 32) &&& ~~~1#32))

/-- LUI and AUIPC (R220, R221): each completes and writes its result to rd and nothing else. -/
def Obligations.UpperImmediateResults : Prop :=
  ∀ (rd : RegAddr) (imm20 : BitVec 20) (s : State),
    (Issues (.lui rd imm20) s → Completes (.lui rd imm20) s (WritesOnly rd fun _ => imm20 ++ 0#12)) ∧
    (Issues (.auipc rd imm20) s → Completes (.auipc rd imm20) s (WritesOnly rd fun a => a.pc + (imm20 ++ 0#12)))

/-- A word outside the opcode table (R240): its cycle completes, it writes no register and no memory, never redirects, and
the next instruction is at pc + 4. -/
def Obligations.UnlistedWordDoesNothing : Prop :=
  ∀ (s : State) (r : Reject), s.Inv → decodeWord s.ifid.inst = .error r → s.ifid ≠ .bubble → s.Accessible →
    s.loadUse = false → s.taken = false →
    ∃ t, step s = .next t ∧ t.imem = s.imem ∧ t.params = s.params ∧ t.taken = false ∧
      t.arch.pc = s.arch.pc + 4#32 ∧ t.arch.x = s.arch.x ∧ t.arch.dmem = s.arch.dmem

/-- An instruction that is stalled or discarded has no effect, and nor has a word outside the opcode table: the stall
"delays it and changes no value" (R257, R262, R273, R240). Its cycle has a next state and the architectural state is the
same before and after; a stalled one stays in ID. -/
def Obligations.StalledOrDiscardedInstructionHasNoEffect : Prop :=
  ∀ s : State, s.Inv → s.Accessible → (s.loadUse = true ∨ s.taken = true) →
    (∀ i, decodeWord s.ifid.inst = .ok i → ∃ t, exec i s = .next t ∧ LeavesNoEffect s t) ∧
    (∀ r, decodeWord s.ifid.inst = .error r → ∃ t, execNoOp s.ifid.inst s = .next t ∧ LeavesNoEffect s t)

/-! ### The pipeline and the sequential reading -/

/-- For every instruction, the cycle in which it issues takes the architectural state to exactly what the instruction's
"Effect" line says (R121, R123 to R221): every hazard with the instructions in EX, MEM and WB is resolved. -/
def Obligations.IssueIsTheSequentialEffect : Prop :=
  ∀ (i : Instr) (s : State), Issues i s → ∃ t, exec i s = .next t ∧ t.imem = s.imem ∧ t.params = s.params ∧ t.arch = effect i s.arch

/-- The architectural state is what the machine's own registers and data memory come to hold: the stores of every
instruction older than the one in ID are made after two cycles, their register writes after three (R121, R331). -/
def Obligations.OlderInstructionsCommit : Prop :=
  (∀ s u : State, runCycles 2 s = .next u → u.dmem = s.arch.dmem) ∧
  (∀ s u : State, runCycles 3 s = .next u → u.x = s.arch.x)

/-- One cycle of the pipeline is no instruction or one instruction of the sequential machine (R274). -/
def Obligations.CycleRefinesTheSequentialMachine : Prop :=
  ∀ s t : State, s.Inv → step s = .next t →
    t.imem = s.imem ∧ t.params = s.params ∧ (t.arch = s.arch ∨ t.arch = seqStep s.imem s.arch)

/-- Sequential semantics of whole runs (R274): after any number of fault-free cycles from reset, over any image and any
data, the architectural state is that of some number of instructions executed one at a time from pc 0, for every capacity of
the instruction memory below the whole address space (log 21). -/
def Obligations.RunsRefineTheSequentialMachine : Prop :=
  ∀ (p : Params) (imem dmem : Memory) (k : Nat) (s : State), p.imemWords < 2 ^ 30 → imem.wf → dmem.wf →
    imem.within p.imemWords → dmem.within p.dmemWords → runCycles k (State.boot p imem dmem) = .next s →
    s.imem = imem ∧ s.params = p ∧ ∃ n, n ≤ k ∧ s.arch = seqRun imem n (Arch.initial dmem)

/-- The drain of R333 is enough and not too much: four cycles after the stop cycle the registers and the data memory are
those that the instruction in ID at the stop cycle and every older one leave, and no later word has changed them. The
stop rule is decision D15 of the spec (log 10). -/
def Obligations.DrainCommitsExactlyTheProgram : Prop :=
  ∀ s e : State, s.Inv → s.stopsHere = true → runCycles Config.drain s = .next e →
    e.x = (seqStep s.imem s.arch).x ∧ e.dmem = (seqStep s.imem s.arch).dmem

/-- The result of a finished run (R333): its registers and data memory are those of some number of instructions executed
one at a time from pc 0, and the stop word is a zero word of the image. The stop rule is decision D15 of the spec
(log 10). -/
def Obligations.FinishedRunHasTheSequentialResult : Prop :=
  ∀ (p : Params) (maxCycles : Nat) (image : List Word) (dmem : Memory) (t : Nat) (z : Word) (ob : ProgramObligations)
    (e : State), p.imemWords < 2 ^ 30 → runProgram p maxCycles image dmem = .ended t z ob e →
    ∃ imem, imageMemory p image = some imem ∧ t < maxCycles ∧ imemRead imem z = 0#32 ∧
    ∃ n, n ≤ t + 1 ∧ e.x = (seqRun imem n (Arch.initial dmem)).x ∧ e.dmem = (seqRun imem n (Arch.initial dmem)).dmem

/-- The program obligations a finished run reports (R334), with stop cycle t and stop word Z. O1: neither the word at Z-4
nor the one at Z-8 is a jump, and no instruction at either address redirects in a cycle up to t + 1, the one in which the
instruction before the stop word is in EX. O2: the cycle before t is no stall. O3: Z + 12 < 4 x IMEM_WORDS. The reading
of O1 and O2 in the run is the model's (log 10). -/
def Obligations.FinishedRunReportsTheProgramObligations : Prop :=
  ∀ (p : Params) (maxCycles : Nat) (image : List Word) (dmem : Memory) (s : State) (t : Nat) (z : Word)
    (ob : ProgramObligations) (e : State), loadRun p image dmem = some s →
    runProgram p maxCycles image dmem = .ended t z ob e →
    (ob.o1 = true ↔ ∀ a, a = z - 4#32 ∨ a = z - 8#32 →
      (∀ rd offset, decodeWord (imemRead s.imem a) ≠ .ok (.jal rd offset)) ∧
      (∀ rd rs1 imm, decodeWord (imemRead s.imem a) ≠ .ok (.jalr rd rs1 imm)) ∧
      ∀ k u, k ≤ t + 1 → runCycles k s = .next u → u.taken = true → wordIndex u.idex.pc ≠ wordIndex a) ∧
    (ob.o2 = true ↔ ∀ u, 0 < t → runCycles (t - 1) s = .next u → u.loadUse = false) ∧
    (ob.o3 = true ↔ z.toNat + 12 < 4 * p.imemWords)

/-! ### Pseudo-instructions -/

/-- `li` and `la` run as named (R102): their two words decode to two instructions whose effects leave the 32-bit immediate,
or the address at that distance from the first of them, in rd, and change nothing else. The expansions are general
knowledge of the spec's writer (log 18). -/
def Obligations.LoadImmediateAndAddressExpansions : Prop :=
  ∀ (rd : RegAddr) (v : Word) (a : Arch), rd ≠ 0#5 →
    (∃ i j, (Pseudo.li rd v).words = [encode i, encode j] ∧ decodeWord (encode i) = .ok i ∧
      decodeWord (encode j) = .ok j ∧ (effect j (effect i a)).reg rd = v ∧
      (∀ r, r ≠ rd → (effect j (effect i a)).reg r = a.reg r) ∧ (effect j (effect i a)).dmem = a.dmem) ∧
    (∃ i j, (Pseudo.la rd v).words = [encode i, encode j] ∧ decodeWord (encode i) = .ok i ∧
      decodeWord (encode j) = .ok j ∧ (effect j (effect i a)).reg rd = a.pc + v ∧
      (∀ r, r ≠ rd → (effect j (effect i a)).reg r = a.reg r) ∧ (effect j (effect i a)).dmem = a.dmem)
end

