-- ==== Sys2Proof/Laws/Encoding.lean ====
section
/-! SUPPORT. The fields of an encoded word, format by format (what the decoder's extractions give on the encoder's
layouts), and the raw register fields of a word in terms of its immediates. -/

namespace Sys2Proof

/-! ### R-type -/

@[simp] theorem opcodeField_encodeR (f7 : BitVec 7) (rs2 rs1 : RegAddr) (f3 : BitVec 3) (rd : RegAddr) (op : BitVec 7) :
    opcodeField (encodeR f7 rs2 rs1 f3 rd op) = op := by
  apply BitVec.eq_of_getLsbD_eq
  intro k hk
  simp only [opcodeField, encodeR, BitVec.getLsbD_append, BitVec.getLsbD_extractLsb']
  interval_cases k <;> simp

@[simp] theorem rdField_encodeR (f7 : BitVec 7) (rs2 rs1 : RegAddr) (f3 : BitVec 3) (rd : RegAddr) (op : BitVec 7) :
    rdField (encodeR f7 rs2 rs1 f3 rd op) = rd := by
  apply BitVec.eq_of_getLsbD_eq
  intro k hk
  simp only [rdField, encodeR, BitVec.getLsbD_append, BitVec.getLsbD_extractLsb']
  interval_cases k <;> simp

@[simp] theorem funct3Field_encodeR (f7 : BitVec 7) (rs2 rs1 : RegAddr) (f3 : BitVec 3) (rd : RegAddr) (op : BitVec 7) :
    funct3Field (encodeR f7 rs2 rs1 f3 rd op) = f3 := by
  apply BitVec.eq_of_getLsbD_eq
  intro k hk
  simp only [funct3Field, encodeR, BitVec.getLsbD_append, BitVec.getLsbD_extractLsb']
  interval_cases k <;> simp

@[simp] theorem rs1Field_encodeR (f7 : BitVec 7) (rs2 rs1 : RegAddr) (f3 : BitVec 3) (rd : RegAddr) (op : BitVec 7) :
    rs1Field (encodeR f7 rs2 rs1 f3 rd op) = rs1 := by
  apply BitVec.eq_of_getLsbD_eq
  intro k hk
  simp only [rs1Field, encodeR, BitVec.getLsbD_append, BitVec.getLsbD_extractLsb']
  interval_cases k <;> simp

@[simp] theorem rs2Field_encodeR (f7 : BitVec 7) (rs2 rs1 : RegAddr) (f3 : BitVec 3) (rd : RegAddr) (op : BitVec 7) :
    rs2Field (encodeR f7 rs2 rs1 f3 rd op) = rs2 := by
  apply BitVec.eq_of_getLsbD_eq
  intro k hk
  simp only [rs2Field, encodeR, BitVec.getLsbD_append, BitVec.getLsbD_extractLsb']
  interval_cases k <;> simp

@[simp] theorem funct7Field_encodeR (f7 : BitVec 7) (rs2 rs1 : RegAddr) (f3 : BitVec 3) (rd : RegAddr) (op : BitVec 7) :
    funct7Field (encodeR f7 rs2 rs1 f3 rd op) = f7 := by
  apply BitVec.eq_of_getLsbD_eq
  intro k hk
  simp only [funct7Field, encodeR, BitVec.getLsbD_append, BitVec.getLsbD_extractLsb']
  interval_cases k <;> simp

@[simp] theorem bit30_encodeR (f7 : BitVec 7) (rs2 rs1 : RegAddr) (f3 : BitVec 3) (rd : RegAddr) (op : BitVec 7) : bit30 (encodeR f7 rs2 rs1 f3 rd op) = f7.getLsbD 5 := by
  simp only [bit30, encodeR, BitVec.getLsbD_append]
  simp

/-! ### I-type -/

@[simp] theorem opcodeField_encodeI (imm : BitVec 12) (rs1 : RegAddr) (f3 : BitVec 3) (rd : RegAddr) (op : BitVec 7) :
    opcodeField (encodeI imm rs1 f3 rd op) = op := by
  apply BitVec.eq_of_getLsbD_eq
  intro k hk
  simp only [opcodeField, encodeI, BitVec.getLsbD_append, BitVec.getLsbD_extractLsb']
  interval_cases k <;> simp

@[simp] theorem rdField_encodeI (imm : BitVec 12) (rs1 : RegAddr) (f3 : BitVec 3) (rd : RegAddr) (op : BitVec 7) :
    rdField (encodeI imm rs1 f3 rd op) = rd := by
  apply BitVec.eq_of_getLsbD_eq
  intro k hk
  simp only [rdField, encodeI, BitVec.getLsbD_append, BitVec.getLsbD_extractLsb']
  interval_cases k <;> simp

@[simp] theorem funct3Field_encodeI (imm : BitVec 12) (rs1 : RegAddr) (f3 : BitVec 3) (rd : RegAddr) (op : BitVec 7) :
    funct3Field (encodeI imm rs1 f3 rd op) = f3 := by
  apply BitVec.eq_of_getLsbD_eq
  intro k hk
  simp only [funct3Field, encodeI, BitVec.getLsbD_append, BitVec.getLsbD_extractLsb']
  interval_cases k <;> simp

@[simp] theorem rs1Field_encodeI (imm : BitVec 12) (rs1 : RegAddr) (f3 : BitVec 3) (rd : RegAddr) (op : BitVec 7) :
    rs1Field (encodeI imm rs1 f3 rd op) = rs1 := by
  apply BitVec.eq_of_getLsbD_eq
  intro k hk
  simp only [rs1Field, encodeI, BitVec.getLsbD_append, BitVec.getLsbD_extractLsb']
  interval_cases k <;> simp

@[simp] theorem immIField_encodeI (imm : BitVec 12) (rs1 : RegAddr) (f3 : BitVec 3) (rd : RegAddr) (op : BitVec 7) :
    immIField (encodeI imm rs1 f3 rd op) = imm := by
  apply BitVec.eq_of_getLsbD_eq
  intro k hk
  simp only [immIField, encodeI, BitVec.getLsbD_append, BitVec.getLsbD_extractLsb']
  interval_cases k <;> simp

@[simp] theorem rs2Field_encodeI (imm : BitVec 12) (rs1 : RegAddr) (f3 : BitVec 3) (rd : RegAddr) (op : BitVec 7) :
    rs2Field (encodeI imm rs1 f3 rd op) = imm.extractLsb' 0 5 := by
  apply BitVec.eq_of_getLsbD_eq
  intro k hk
  simp only [rs2Field, encodeI, BitVec.getLsbD_append, BitVec.getLsbD_extractLsb']
  interval_cases k <;> simp

/-! ### S-type -/

@[simp] theorem opcodeField_encodeS (imm : BitVec 12) (rs2 rs1 : RegAddr) (f3 : BitVec 3) (op : BitVec 7) :
    opcodeField (encodeS imm rs2 rs1 f3 op) = op := by
  apply BitVec.eq_of_getLsbD_eq
  intro k hk
  simp only [opcodeField, encodeS, BitVec.getLsbD_append, BitVec.getLsbD_extractLsb']
  interval_cases k <;> simp

@[simp] theorem funct3Field_encodeS (imm : BitVec 12) (rs2 rs1 : RegAddr) (f3 : BitVec 3) (op : BitVec 7) :
    funct3Field (encodeS imm rs2 rs1 f3 op) = f3 := by
  apply BitVec.eq_of_getLsbD_eq
  intro k hk
  simp only [funct3Field, encodeS, BitVec.getLsbD_append, BitVec.getLsbD_extractLsb']
  interval_cases k <;> simp

@[simp] theorem rs1Field_encodeS (imm : BitVec 12) (rs2 rs1 : RegAddr) (f3 : BitVec 3) (op : BitVec 7) :
    rs1Field (encodeS imm rs2 rs1 f3 op) = rs1 := by
  apply BitVec.eq_of_getLsbD_eq
  intro k hk
  simp only [rs1Field, encodeS, BitVec.getLsbD_append, BitVec.getLsbD_extractLsb']
  interval_cases k <;> simp

@[simp] theorem rs2Field_encodeS (imm : BitVec 12) (rs2 rs1 : RegAddr) (f3 : BitVec 3) (op : BitVec 7) :
    rs2Field (encodeS imm rs2 rs1 f3 op) = rs2 := by
  apply BitVec.eq_of_getLsbD_eq
  intro k hk
  simp only [rs2Field, encodeS, BitVec.getLsbD_append, BitVec.getLsbD_extractLsb']
  interval_cases k <;> simp

@[simp] theorem immSField_encodeS (imm : BitVec 12) (rs2 rs1 : RegAddr) (f3 : BitVec 3) (op : BitVec 7) :
    immSField (encodeS imm rs2 rs1 f3 op) = imm := by
  apply BitVec.eq_of_getLsbD_eq
  intro k hk
  simp only [immSField, encodeS, BitVec.getLsbD_append, BitVec.getLsbD_extractLsb']
  interval_cases k <;> simp

@[simp] theorem rdField_encodeS (imm : BitVec 12) (rs2 rs1 : RegAddr) (f3 : BitVec 3) (op : BitVec 7) :
    rdField (encodeS imm rs2 rs1 f3 op) = imm.extractLsb' 0 5 := by
  apply BitVec.eq_of_getLsbD_eq
  intro k hk
  simp only [rdField, encodeS, BitVec.getLsbD_append, BitVec.getLsbD_extractLsb']
  interval_cases k <;> simp

/-! ### B-type -/

@[simp] theorem opcodeField_encodeB (o : BitVec 13) (rs2 rs1 : RegAddr) (f3 : BitVec 3) (op : BitVec 7) :
    opcodeField (encodeB o rs2 rs1 f3 op) = op := by
  apply BitVec.eq_of_getLsbD_eq
  intro k hk
  simp only [opcodeField, encodeB, BitVec.getLsbD_append, BitVec.getLsbD_extractLsb']
  interval_cases k <;> simp

@[simp] theorem funct3Field_encodeB (o : BitVec 13) (rs2 rs1 : RegAddr) (f3 : BitVec 3) (op : BitVec 7) :
    funct3Field (encodeB o rs2 rs1 f3 op) = f3 := by
  apply BitVec.eq_of_getLsbD_eq
  intro k hk
  simp only [funct3Field, encodeB, BitVec.getLsbD_append, BitVec.getLsbD_extractLsb']
  interval_cases k <;> simp

@[simp] theorem rs1Field_encodeB (o : BitVec 13) (rs2 rs1 : RegAddr) (f3 : BitVec 3) (op : BitVec 7) :
    rs1Field (encodeB o rs2 rs1 f3 op) = rs1 := by
  apply BitVec.eq_of_getLsbD_eq
  intro k hk
  simp only [rs1Field, encodeB, BitVec.getLsbD_append, BitVec.getLsbD_extractLsb']
  interval_cases k <;> simp

@[simp] theorem rs2Field_encodeB (o : BitVec 13) (rs2 rs1 : RegAddr) (f3 : BitVec 3) (op : BitVec 7) :
    rs2Field (encodeB o rs2 rs1 f3 op) = rs2 := by
  apply BitVec.eq_of_getLsbD_eq
  intro k hk
  simp only [rs2Field, encodeB, BitVec.getLsbD_append, BitVec.getLsbD_extractLsb']
  interval_cases k <;> simp

@[simp] theorem rdField_encodeB (o : BitVec 13) (rs2 rs1 : RegAddr) (f3 : BitVec 3) (op : BitVec 7) :
    rdField (encodeB o rs2 rs1 f3 op) = o.extractLsb' 1 4 ++ o.extractLsb' 11 1 := by
  apply BitVec.eq_of_getLsbD_eq
  intro k hk
  simp only [rdField, encodeB, BitVec.getLsbD_append, BitVec.getLsbD_extractLsb']
  interval_cases k <;> simp

theorem immBField_encodeB (o : BitVec 13) (rs2 rs1 : RegAddr) (f3 : BitVec 3) (op : BitVec 7) (h : o.getLsbD 0 = false) :
    immBField (encodeB o rs2 rs1 f3 op) = o := by
  apply BitVec.eq_of_getLsbD_eq
  intro k hk
  simp only [immBField, encodeB, BitVec.getLsbD_append, BitVec.getLsbD_extractLsb']
  interval_cases k <;> simp [-BitVec.getLsbD_eq_getElem, h]

/-! ### U-type -/

@[simp] theorem opcodeField_encodeU (imm20 : BitVec 20) (rd : RegAddr) (op : BitVec 7) :
    opcodeField (encodeU imm20 rd op) = op := by
  apply BitVec.eq_of_getLsbD_eq
  intro k hk
  simp only [opcodeField, encodeU, BitVec.getLsbD_append, BitVec.getLsbD_extractLsb']
  interval_cases k <;> simp

@[simp] theorem rdField_encodeU (imm20 : BitVec 20) (rd : RegAddr) (op : BitVec 7) :
    rdField (encodeU imm20 rd op) = rd := by
  apply BitVec.eq_of_getLsbD_eq
  intro k hk
  simp only [rdField, encodeU, BitVec.getLsbD_append, BitVec.getLsbD_extractLsb']
  interval_cases k <;> simp

@[simp] theorem immUField_encodeU (imm20 : BitVec 20) (rd : RegAddr) (op : BitVec 7) :
    immUField (encodeU imm20 rd op) = imm20 := by
  apply BitVec.eq_of_getLsbD_eq
  intro k hk
  simp only [immUField, encodeU, BitVec.getLsbD_append, BitVec.getLsbD_extractLsb']
  interval_cases k <;> simp

@[simp] theorem rs1Field_encodeU (imm20 : BitVec 20) (rd : RegAddr) (op : BitVec 7) :
    rs1Field (encodeU imm20 rd op) = imm20.extractLsb' 3 5 := by
  apply BitVec.eq_of_getLsbD_eq
  intro k hk
  simp only [rs1Field, encodeU, BitVec.getLsbD_append, BitVec.getLsbD_extractLsb']
  interval_cases k <;> simp

@[simp] theorem rs2Field_encodeU (imm20 : BitVec 20) (rd : RegAddr) (op : BitVec 7) :
    rs2Field (encodeU imm20 rd op) = imm20.extractLsb' 8 5 := by
  apply BitVec.eq_of_getLsbD_eq
  intro k hk
  simp only [rs2Field, encodeU, BitVec.getLsbD_append, BitVec.getLsbD_extractLsb']
  interval_cases k <;> simp

/-! ### J-type -/

@[simp] theorem opcodeField_encodeJ (o : BitVec 21) (rd : RegAddr) (op : BitVec 7) :
    opcodeField (encodeJ o rd op) = op := by
  apply BitVec.eq_of_getLsbD_eq
  intro k hk
  simp only [opcodeField, encodeJ, BitVec.getLsbD_append, BitVec.getLsbD_extractLsb']
  interval_cases k <;> simp

@[simp] theorem rdField_encodeJ (o : BitVec 21) (rd : RegAddr) (op : BitVec 7) :
    rdField (encodeJ o rd op) = rd := by
  apply BitVec.eq_of_getLsbD_eq
  intro k hk
  simp only [rdField, encodeJ, BitVec.getLsbD_append, BitVec.getLsbD_extractLsb']
  interval_cases k <;> simp

@[simp] theorem rs1Field_encodeJ (o : BitVec 21) (rd : RegAddr) (op : BitVec 7) :
    rs1Field (encodeJ o rd op) = o.extractLsb' 15 5 := by
  apply BitVec.eq_of_getLsbD_eq
  intro k hk
  simp only [rs1Field, encodeJ, BitVec.getLsbD_append, BitVec.getLsbD_extractLsb']
  interval_cases k <;> simp

@[simp] theorem rs2Field_encodeJ (o : BitVec 21) (rd : RegAddr) (op : BitVec 7) :
    rs2Field (encodeJ o rd op) = o.extractLsb' 1 4 ++ o.extractLsb' 11 1 := by
  apply BitVec.eq_of_getLsbD_eq
  intro k hk
  simp only [rs2Field, encodeJ, BitVec.getLsbD_append, BitVec.getLsbD_extractLsb']
  interval_cases k <;> simp

theorem immJField_encodeJ (o : BitVec 21) (rd : RegAddr) (op : BitVec 7) (h : o.getLsbD 0 = false) :
    immJField (encodeJ o rd op) = o := by
  apply BitVec.eq_of_getLsbD_eq
  intro k hk
  simp only [immJField, encodeJ, BitVec.getLsbD_append, BitVec.getLsbD_extractLsb']
  interval_cases k <;> simp [-BitVec.getLsbD_eq_getElem, h]

/-! ### The raw register fields of any word, read from its immediates (R81, R82) -/

@[simp] theorem immIField_low (w : Word) :
    (immIField w).extractLsb' 0 5 = rs2Field w := by
  apply BitVec.eq_of_getLsbD_eq
  intro k hk
  simp only [immIField, rs2Field, BitVec.getLsbD_extractLsb']
  interval_cases k <;> simp

@[simp] theorem immSField_low (w : Word) :
    (immSField w).extractLsb' 0 5 = rdField w := by
  apply BitVec.eq_of_getLsbD_eq
  intro k hk
  simp only [immSField, rdField, BitVec.getLsbD_append, BitVec.getLsbD_extractLsb']
  interval_cases k <;> simp

@[simp] theorem immBField_low (w : Word) :
    (immBField w).extractLsb' 1 4 ++ (immBField w).extractLsb' 11 1 = rdField w := by
  apply BitVec.eq_of_getLsbD_eq
  intro k hk
  simp only [immBField, rdField, BitVec.getLsbD_append, BitVec.getLsbD_extractLsb']
  interval_cases k <;> simp

@[simp] theorem immUField_rs1 (w : Word) :
    (immUField w).extractLsb' 3 5 = rs1Field w := by
  apply BitVec.eq_of_getLsbD_eq
  intro k hk
  simp only [immUField, rs1Field, BitVec.getLsbD_extractLsb']
  interval_cases k <;> simp

@[simp] theorem immUField_rs2 (w : Word) :
    (immUField w).extractLsb' 8 5 = rs2Field w := by
  apply BitVec.eq_of_getLsbD_eq
  intro k hk
  simp only [immUField, rs2Field, BitVec.getLsbD_extractLsb']
  interval_cases k <;> simp

@[simp] theorem immJField_rs1 (w : Word) :
    (immJField w).extractLsb' 15 5 = rs1Field w := by
  apply BitVec.eq_of_getLsbD_eq
  intro k hk
  simp only [immJField, rs1Field, BitVec.getLsbD_append, BitVec.getLsbD_extractLsb']
  interval_cases k <;> simp

@[simp] theorem immJField_rs2 (w : Word) :
    (immJField w).extractLsb' 1 4 ++ (immJField w).extractLsb' 11 1 = rs2Field w := by
  apply BitVec.eq_of_getLsbD_eq
  intro k hk
  simp only [immJField, rs2Field, BitVec.getLsbD_append, BitVec.getLsbD_extractLsb']
  interval_cases k <;> simp

@[simp] theorem funct7_shamt (w : Word) :
    funct7Field w ++ rs2Field w = immIField w := by
  apply BitVec.eq_of_getLsbD_eq
  intro k hk
  simp only [immIField, funct7Field, rs2Field, BitVec.getLsbD_append, BitVec.getLsbD_extractLsb']
  interval_cases k <;> simp

theorem immBField_even (w : Word) : (immBField w).getLsbD 0 = false := by
  simp only [immBField, BitVec.getLsbD_append]
  simp

theorem immJField_even (w : Word) : (immJField w).getLsbD 0 = false := by
  simp only [immJField, BitVec.getLsbD_append]
  simp

theorem funct7Field_bit30 (w : Word) : (funct7Field w).getLsbD 5 = bit30 w := by
  simp only [funct7Field, bit30, BitVec.getLsbD_extractLsb']
  simp

/-! ### Laying a word out as bytes and reading it back -/

theorem wordOfBytes_bytes (v : Word) :
    wordOfBytes (byteOfWord v 0) (byteOfWord v 1) (byteOfWord v 2) (byteOfWord v 3) = v := by
  apply BitVec.eq_of_getLsbD_eq
  intro k hk
  simp only [wordOfBytes, byteOfWord, BitVec.getLsbD_append, BitVec.getLsbD_extractLsb']
  interval_cases k <;> simp

/-- What the table's decoder answers for a 32-bit word. -/
theorem decodeTableWord_eq (w : Word) :
    decodeTableWord 32 w.toNat = match decodeWord w with | .ok i => some i | .error _ => none := by
  have hw : BitVec.ofNat 32 (w.toNat % 2 ^ 32) = w := by
    apply BitVec.eq_of_toNat_eq
    simpa using w.isLt
  simp only [decodeTableWord, decodeBytes, hw, wordOfBytes_bytes]
  cases decodeWord w <;> rfl

end Sys2Proof
end

