-- ==== Sys2Proof/Laws/Memory.lean ====
section
/-! SUPPORT. Laws of the memory operations: what a read gives after a write, that a write touches no other byte, that
every write keeps the canonical form and the capacity, and that equal contents are equal lists. -/

namespace Sys2Proof.Machine

/-! ### The canonical form, one entry at a time -/

theorem wf_nil : Memory.wf [] := ⟨List.Pairwise.nil, by simp⟩

theorem wf_cons {b : Nat} {u : Byte} {m : Memory} :
    Memory.wf ((b, u) :: m) ↔ (∀ c ∈ m, b < c.1) ∧ u ≠ Config.unlistedByte ∧ Memory.wf m := by
  simp only [Memory.wf, List.pairwise_cons, List.forall_mem_cons]
  tauto

theorem within_cons {b : Nat} {u : Byte} {m : Memory} {n : Nat} :
    Memory.within ((b, u) :: m) n ↔ b < 4 * n ∧ Memory.within m n := by
  simp [Memory.within]

@[simp] theorem readByte_nil (a : Nat) : readByte [] a = Config.unlistedByte := rfl

theorem readByte_of_lt {m : Memory} {a : Nat} (h : ∀ c ∈ m, a < c.1) : readByte m a = Config.unlistedByte := by
  induction m with
  | nil => rfl
  | cons c m ih =>
    have hc : a < c.1 := h c (by simp)
    have hne : c.1 ≠ a := by omega
    simp [readByte, hne, ih fun d hd => h d (by simp [hd])]

/-! ### Byte writes -/

theorem mem_writeByte {m : Memory} {a : Nat} {v : Byte} {c : Host.Cell} (h : c ∈ writeByte m a v) :
    c ∈ m ∨ (c = (a, v) ∧ v ≠ Config.unlistedByte) := by
  induction m with
  | nil =>
    simp only [writeByte] at h
    split at h <;> simp_all
  | cons d m ih =>
    obtain ⟨b, u⟩ := d
    simp only [writeByte] at h
    split at h
    · split at h
      · exact .inl h
      · rcases List.mem_cons.1 h with rfl | h
        · exact .inr ⟨rfl, ‹_›⟩
        · exact .inl h
    · split at h
      · split at h
        · exact .inl (List.mem_cons_of_mem _ h)
        · rcases List.mem_cons.1 h with rfl | h
          · exact .inr ⟨rfl, ‹_›⟩
          · exact .inl (List.mem_cons_of_mem _ h)
      · rcases List.mem_cons.1 h with rfl | h
        · exact .inl (by simp)
        · exact (ih h).imp_left (List.mem_cons_of_mem _)

/-- A write keeps the canonical form. -/
theorem wf_writeByte {m : Memory} (h : m.wf) (a : Nat) (v : Byte) : Memory.wf (writeByte m a v) := by
  induction m with
  | nil =>
    simp only [writeByte]
    split
    · exact wf_nil
    · exact wf_cons.2 ⟨by simp, ‹_›, wf_nil⟩
  | cons d m ih =>
    obtain ⟨b, u⟩ := d
    rw [wf_cons] at h
    obtain ⟨hlt, hu, hm⟩ := h
    simp only [writeByte]
    split
    · split
      · exact wf_cons.2 ⟨hlt, hu, hm⟩
      · refine wf_cons.2 ⟨?_, ‹_›, wf_cons.2 ⟨hlt, hu, hm⟩⟩
        intro c hc
        rcases List.mem_cons.1 hc with rfl | hc
        · assumption
        · have := hlt c hc
          omega
    · split
      · split
        · exact hm
        · refine wf_cons.2 ⟨?_, ‹_›, hm⟩
          intro c hc
          have := hlt c hc
          omega
      · refine wf_cons.2 ⟨?_, hu, ih hm⟩
        intro c hc
        rcases mem_writeByte hc with hc | ⟨rfl, -⟩
        · exact hlt c hc
        · show b < a
          omega

/-- A write inside the capacity keeps every listed address inside it. -/
theorem within_writeByte {m : Memory} {n a : Nat} (h : m.within n) (ha : a < 4 * n) (v : Byte) :
    Memory.within (writeByte m a v) n := by
  intro c hc
  rcases mem_writeByte hc with hc | ⟨rfl, -⟩
  · exact h c hc
  · exact ha

/-- A byte reads as it was written. -/
theorem readByte_writeByte_same {m : Memory} (h : m.wf) (a : Nat) (v : Byte) : readByte (writeByte m a v) a = v := by
  induction m with
  | nil =>
    simp only [writeByte]
    split <;> simp_all [readByte]
  | cons d m ih =>
    obtain ⟨b, u⟩ := d
    rw [wf_cons] at h
    obtain ⟨hlt, hu, hm⟩ := h
    simp only [writeByte]
    split
    · split
      · rename_i hab hv
        rw [hv]
        refine readByte_of_lt fun c hc => ?_
        rcases List.mem_cons.1 hc with rfl | hc
        · exact hab
        · have := hlt c hc
          omega
      · simp [readByte]
    · split
      · rename_i hab
        subst hab
        split
        · rename_i hv
          rw [hv]
          exact readByte_of_lt hlt
        · simp [readByte]
      · rename_i hab
        have hne : b ≠ a := fun h => hab h.symm
        simp [readByte, hne, ih hm]

/-- A write leaves every other byte alone. -/
theorem readByte_writeByte_other (m : Memory) {a b : Nat} (v : Byte) (h : b ≠ a) :
    readByte (writeByte m a v) b = readByte m b := by
  induction m with
  | nil =>
    simp only [writeByte]
    split <;> simp [readByte, h.symm]
  | cons d m ih =>
    obtain ⟨e, u⟩ := d
    simp only [writeByte]
    split
    · split <;> simp [readByte, h.symm]
    · split
      · rename_i hae
        subst hae
        split <;> simp [readByte, h.symm]
      · simp [readByte, ih]

theorem readByte_writeByte {m : Memory} (h : m.wf) (a b : Nat) (v : Byte) :
    readByte (writeByte m a v) b = if b = a then v else readByte m b := by
  split
  · rename_i hba
    rw [hba, readByte_writeByte_same h]
  · rename_i hba
    exact readByte_writeByte_other m v hba

/-- Canonical memories with the same bytes are the same list. -/
theorem memory_ext {m m' : Memory} (h : m.wf) (h' : m'.wf) (hb : ∀ a, readByte m a = readByte m' a) : m = m' := by
  induction m generalizing m' with
  | nil =>
    cases m' with
    | nil => rfl
    | cons d m' =>
      obtain ⟨b, u⟩ := d
      have := hb b
      simp only [readByte, if_true] at this
      exact absurd this.symm (wf_cons.1 h').2.1
  | cons c m ih =>
    obtain ⟨a, v⟩ := c
    obtain ⟨hlt, hv, hm⟩ := wf_cons.1 h
    cases m' with
    | nil =>
      have := hb a
      simp only [readByte, if_true] at this
      exact absurd this hv
    | cons d m' =>
      obtain ⟨b, u⟩ := d
      obtain ⟨hlt', hu, hm'⟩ := wf_cons.1 h'
      have hab : a = b := by
        rcases Nat.lt_trichotomy a b with hl | he | hl
        · have hr : readByte ((b, u) :: m') a = Config.unlistedByte := by
            refine readByte_of_lt fun c hc => ?_
            rcases List.mem_cons.1 hc with rfl | hc
            · exact hl
            · have := hlt' c hc
              omega
          have := hb a
          rw [hr] at this
          simp only [readByte, if_true] at this
          exact absurd this hv
        · exact he
        · have hr : readByte ((a, v) :: m) b = Config.unlistedByte := by
            refine readByte_of_lt fun c hc => ?_
            rcases List.mem_cons.1 hc with rfl | hc
            · exact hl
            · have := hlt c hc
              omega
          have := hb b
          rw [hr] at this
          simp only [readByte, if_true] at this
          exact absurd this.symm hu
      subst hab
      have huv : v = u := by simpa [readByte] using hb a
      subst huv
      congr 1
      refine ih hm hm' fun k => ?_
      by_cases hk : a = k
      · subst hk
        rw [readByte_of_lt hlt, readByte_of_lt hlt']
      · simpa [readByte, hk] using hb k

/-! ### Words -/

theorem wf_writeWord {m : Memory} (h : m.wf) (i : Nat) (v : Word) : Memory.wf (writeWord m i v) :=
  wf_writeByte (wf_writeByte (wf_writeByte (wf_writeByte h _ _) _ _) _ _) _ _

theorem within_writeWord {m : Memory} {n i : Nat} (h : m.within n) (hi : i < n) (v : Word) :
    Memory.within (writeWord m i v) n :=
  within_writeByte (within_writeByte (within_writeByte (within_writeByte h (by omega) _) (by omega) _) (by omega) _)
    (by omega) _

/-- A store changes no byte outside its word. -/
theorem readByte_writeWord_outside (m : Memory) {i a : Nat} (v : Word) (h : a < 4 * i ∨ 4 * i + 4 ≤ a) :
    readByte (writeWord m i v) a = readByte m a := by
  simp only [writeWord]
  rw [readByte_writeByte_other, readByte_writeByte_other, readByte_writeByte_other, readByte_writeByte_other] <;> omega

/-- A word reads as it was written. -/
theorem readWord_writeWord_same {m : Memory} (h : m.wf) (i : Nat) (v : Word) : readWord (writeWord m i v) i = v := by
  have h1 := wf_writeByte h (4 * i) (byteOfWord v 0)
  have h2 := wf_writeByte h1 (4 * i + 1) (byteOfWord v 1)
  have h3 := wf_writeByte h2 (4 * i + 2) (byteOfWord v 2)
  simp only [readWord, writeWord, readByte_writeByte h3, readByte_writeByte h2, readByte_writeByte h1,
    readByte_writeByte h]
  simp only [Nat.add_left_cancel_iff, Nat.reduceEqDiff, if_true, if_false, Nat.add_eq_left, OfNat.ofNat_ne_zero,
    Nat.left_eq_add, one_ne_zero]
  exact wordOfBytes_bytes v

/-- A store leaves every other word alone. -/
theorem readWord_writeWord_other (m : Memory) {i j : Nat} (v : Word) (h : j ≠ i) :
    readWord (writeWord m i v) j = readWord m j := by
  simp only [readWord]
  rw [readByte_writeWord_outside, readByte_writeWord_outside, readByte_writeWord_outside,
    readByte_writeWord_outside] <;> omega

theorem wf_memWrite {m : Memory} (h : m.wf) (a v : Word) : Memory.wf (memWrite m a v) := wf_writeWord h _ _

theorem within_memWrite {m : Memory} {n : Nat} (h : m.within n) {a : Word} (ha : wordIndex a < n) (v : Word) :
    Memory.within (memWrite m a v) n := within_writeWord h ha _

theorem wf_placeWords {m : Memory} (h : m.wf) (i : Nat) (ws : List Word) : Memory.wf (placeWords m i ws) := by
  induction ws generalizing m i with
  | nil => exact h
  | cons w ws ih => exact ih (wf_writeWord h i w) (i + 1)

theorem within_placeWords {m : Memory} {n : Nat} (h : m.within n) {i : Nat} {ws : List Word} (hi : i + ws.length ≤ n) :
    Memory.within (placeWords m i ws) n := by
  induction ws generalizing m i with
  | nil => exact h
  | cons w ws ih =>
    simp only [List.length_cons] at hi
    exact ih (within_writeWord h (by omega) w) (by omega)

/-- What a memory with words placed from word `i` upward reads as. -/
theorem readWord_placeWords (ws : List Word) {m : Memory} (h : m.wf) (i k : Nat) :
    readWord (placeWords m i ws) k = if i ≤ k ∧ k < i + ws.length then ws.getD (k - i) 0#32 else readWord m k := by
  induction ws generalizing m i with
  | nil =>
    rw [placeWords, if_neg]
    simp only [List.length_nil]
    omega
  | cons w ws ih =>
    rw [placeWords, ih (wf_writeWord h _ _)]
    by_cases hk : k = i
    · subst hk
      simp [readWord_writeWord_same h]
    · rw [readWord_writeWord_other _ _ hk]
      by_cases h1 : i ≤ k ∧ k < i + (w :: ws).length
      · have h2 : i + 1 ≤ k ∧ k < i + 1 + ws.length := by
          rw [List.length_cons] at h1
          omega
        rw [if_pos h1, if_pos h2, show k - i = (k - (i + 1)) + 1 by omega]
        simp
      · have h2 : ¬(i + 1 ≤ k ∧ k < i + 1 + ws.length) := by
          rw [List.length_cons] at h1
          omega
        rw [if_neg h1, if_neg h2]

end Sys2Proof.Machine
end

