-- ==== Sys2Proof/Laws/Registers.lean ====
section
/-! SUPPORT. Laws of the register file: x0, the write port, and the read port with its bypass. -/

namespace Sys2Proof.Machine

@[simp] theorem readReg_x0 (x : RegFile) : readReg x 0#5 = 0#32 := by simp [readReg]

@[simp] theorem readPort_x0 (x : RegFile) (en : Bool) (a : RegAddr) (v : Word) : readPort x en a v 0#5 = 0#32 := by
  simp [readPort]

@[simp] theorem writeReg_disabled (x : RegFile) (a : RegAddr) (v : Word) : writeReg x false a v = x := by
  simp [writeReg]

@[simp] theorem writeReg_x0 (x : RegFile) (en : Bool) (v : Word) : writeReg x en 0#5 v = x := by
  simp [writeReg]

/-- Everything the write port can do to a stored register. -/
theorem storedReg_writeReg (x : RegFile) (en : Bool) (a r : RegAddr) (v : Word) :
    storedReg (writeReg x en a v) r = if en = true ∧ a ≠ 0#5 ∧ r = a then v else storedReg x r := by
  unfold writeReg storedReg
  by_cases h : (en && a != 0#5) = true
  · rw [if_pos h]
    simp only [Bool.and_eq_true, bne_iff_ne, ne_eq] at h
    simp [Vector.getElem_set, BitVec.toNat_inj, h.1, h.2, eq_comm]
  · have hn : ¬(en = true ∧ a ≠ 0#5 ∧ r = a) := by
      rintro ⟨rfl, ha, -⟩
      simp [ha] at h
    simp [h, hn]

/-- Everything the write port can do to a register as it is read. -/
theorem readReg_writeReg (x : RegFile) (en : Bool) (a r : RegAddr) (v : Word) :
    readReg (writeReg x en a v) r = if en = true ∧ r = a ∧ r ≠ 0#5 then v else readReg x r := by
  unfold readReg
  rw [storedReg_writeReg]
  by_cases hr : r = 0#5
  · simp [hr]
  · by_cases ha : r = a
    · subst ha
      simp [hr]
    · simp [hr, ha]

/-- The bypassed read is the read of the register file after the write (R23, R24). -/
theorem readPort_eq (x : RegFile) (en : Bool) (a : RegAddr) (v : Word) (r : RegAddr) :
    readPort x en a v r = readReg (writeReg x en a v) r := by
  rw [readReg_writeReg]
  unfold readPort readReg
  by_cases hr : r = 0#5
  · simp [hr]
  · by_cases ha : r = a
    · subst ha
      simp [hr]
    · have ha' : a ≠ r := fun h => ha h.symm
      simp [hr, ha, ha']

/-- Two register files with the same stored registers are equal. -/
theorem regFile_ext {x y : RegFile} (h : ∀ r, storedReg x r = storedReg y r) : x = y := by
  apply Vector.ext
  intro i hi
  have := h (BitVec.ofNat 5 i)
  simpa [storedReg, Nat.mod_eq_of_lt hi] using this

end Sys2Proof.Machine
end

