-- ==== Sys2Proof/Laws/State.lean ====
section
/-! SUPPORT. One lemma per field per update of State, and per projection of the sequential reading, so that no later
proof unfolds a record. -/

namespace Sys2Proof.Machine

/-! ### The pipeline-register update rule (R252) -/

@[simp] theorem nextLatch_flush {α : Type} (stall : Bool) (b o i : α) : nextLatch stall true b o i = b := rfl
@[simp] theorem nextLatch_hold {α : Type} (b o i : α) : nextLatch true false b o i = o := rfl
@[simp] theorem nextLatch_take {α : Type} (b o i : α) : nextLatch false false b o i = i := rfl

/-! ### The commit of a cycle (R271) -/

@[simp] theorem commit_pc (s : State) (d : IdOut) : (s.commit d).pc = s.nextPc (s.loadUseOn d.rs1 d.rs2) := rfl
@[simp] theorem commit_x (s : State) (d : IdOut) : (s.commit d).x = s.nextRegs := rfl
@[simp] theorem commit_ifid (s : State) (d : IdOut) :
    (s.commit d).ifid = nextLatch (s.loadUseOn d.rs1 d.rs2) s.taken .bubble s.ifid ⟨s.pc, s.fetchWord⟩ := rfl
@[simp] theorem commit_idex (s : State) (d : IdOut) :
    (s.commit d).idex = nextLatch false (s.taken || s.loadUseOn d.rs1 d.rs2) .bubble s.idex (s.idexIn d) := rfl
@[simp] theorem commit_exmem (s : State) (d : IdOut) : (s.commit d).exmem = s.exmemIn := rfl
@[simp] theorem commit_memwb (s : State) (d : IdOut) : (s.commit d).memwb = s.memwbIn := rfl
@[simp] theorem commit_imem (s : State) (d : IdOut) : (s.commit d).imem = s.imem := rfl
@[simp] theorem commit_dmem (s : State) (d : IdOut) : (s.commit d).dmem = s.nextDmem := rfl
@[simp] theorem commit_params (s : State) (d : IdOut) : (s.commit d).params = s.params := rfl

/-! ### The inputs of the pipeline registers -/

@[simp] theorem idexIn_pc (s : State) (d : IdOut) : (s.idexIn d).pc = s.ifid.pc := rfl
@[simp] theorem idexIn_rs1Data (s : State) (d : IdOut) : (s.idexIn d).rs1Data = s.idRead d.rs1 := rfl
@[simp] theorem idexIn_rs2Data (s : State) (d : IdOut) : (s.idexIn d).rs2Data = s.idRead d.rs2 := rfl
@[simp] theorem idexIn_imm (s : State) (d : IdOut) : (s.idexIn d).imm = d.imm := rfl
@[simp] theorem idexIn_rs1 (s : State) (d : IdOut) : (s.idexIn d).rs1 = d.rs1 := rfl
@[simp] theorem idexIn_rs2 (s : State) (d : IdOut) : (s.idexIn d).rs2 = d.rs2 := rfl
@[simp] theorem idexIn_rd (s : State) (d : IdOut) : (s.idexIn d).rd = d.rd := rfl
@[simp] theorem idexIn_ctrl (s : State) (d : IdOut) : (s.idexIn d).ctrl = d.ctrl := rfl
@[simp] theorem exmemIn_pc (s : State) : s.exmemIn.pc = s.idex.pc := rfl
@[simp] theorem exmemIn_aluResult (s : State) : s.exmemIn.aluResult = s.aluOut.result := rfl
@[simp] theorem exmemIn_rs2Data (s : State) : s.exmemIn.rs2Data = s.fwdB := rfl
@[simp] theorem exmemIn_rdAddr (s : State) : s.exmemIn.rdAddr = s.idex.rd := rfl
@[simp] theorem exmemIn_ctrl (s : State) : s.exmemIn.ctrl = s.idex.ctrl := rfl
@[simp] theorem memwbIn_pc (s : State) : s.memwbIn.pc = s.exmem.pc := rfl
@[simp] theorem memwbIn_aluResult (s : State) : s.memwbIn.aluResult = s.exmem.aluResult := rfl
@[simp] theorem memwbIn_memData (s : State) : s.memwbIn.memData = s.memData := rfl
@[simp] theorem memwbIn_rdAddr (s : State) : s.memwbIn.rdAddr = s.exmem.rdAddr := rfl
@[simp] theorem memwbIn_ctrl (s : State) : s.memwbIn.ctrl = s.exmem.ctrl := rfl

/-! ### The bubbles (R35) -/

@[simp] theorem ifidBubble_pc : IfId.bubble.pc = 0#32 := rfl
@[simp] theorem ifidBubble_inst : IfId.bubble.inst = 0#32 := rfl
@[simp] theorem idexBubble_pc : IdEx.bubble.pc = 0#32 := rfl
@[simp] theorem idexBubble_rs1Data : IdEx.bubble.rs1Data = 0#32 := rfl
@[simp] theorem idexBubble_rs2Data : IdEx.bubble.rs2Data = 0#32 := rfl
@[simp] theorem idexBubble_imm : IdEx.bubble.imm = 0#32 := rfl
@[simp] theorem idexBubble_rs1 : IdEx.bubble.rs1 = 0#5 := rfl
@[simp] theorem idexBubble_rs2 : IdEx.bubble.rs2 = 0#5 := rfl
@[simp] theorem idexBubble_rd : IdEx.bubble.rd = 0#5 := rfl
@[simp] theorem idexBubble_ctrl : IdEx.bubble.ctrl = ControlSignals.off := rfl
@[simp] theorem exmemBubble_aluResult : ExMem.bubble.aluResult = 0#32 := rfl
@[simp] theorem exmemBubble_rs2Data : ExMem.bubble.rs2Data = 0#32 := rfl
@[simp] theorem exmemBubble_rdAddr : ExMem.bubble.rdAddr = 0#5 := rfl
@[simp] theorem exmemBubble_ctrl : ExMem.bubble.ctrl = ControlSignals.off := rfl
@[simp] theorem memwbBubble_aluResult : MemWb.bubble.aluResult = 0#32 := rfl
@[simp] theorem memwbBubble_memData : MemWb.bubble.memData = 0#32 := rfl
@[simp] theorem memwbBubble_rdAddr : MemWb.bubble.rdAddr = 0#5 := rfl
@[simp] theorem memwbBubble_ctrl : MemWb.bubble.ctrl = ControlSignals.off := rfl
@[simp] theorem off_regWrite : ControlSignals.off.regWrite = false := rfl
@[simp] theorem off_memRead : ControlSignals.off.memRead = false := rfl
@[simp] theorem off_memWrite : ControlSignals.off.memWrite = false := rfl
@[simp] theorem off_aluSrcImmediate : ControlSignals.off.aluSrcImmediate = false := rfl
@[simp] theorem off_branch : ControlSignals.off.branch = false := rfl
@[simp] theorem off_jump : ControlSignals.off.jump = false := rfl
@[simp] theorem off_memToReg : ControlSignals.off.memToReg = false := rfl
@[simp] theorem off_aluOp : ControlSignals.off.aluOp = AluOp.nop := rfl

/-! ### Reset and boot (R330, R332) -/

@[simp] theorem boot_pc (p : Params) (im dm : Memory) : (State.boot p im dm).pc = Config.resetPc := rfl
@[simp] theorem boot_x (p : Params) (im dm : Memory) : (State.boot p im dm).x = Vector.replicate 32 0#32 := rfl
@[simp] theorem boot_ifid (p : Params) (im dm : Memory) : (State.boot p im dm).ifid = .bubble := rfl
@[simp] theorem boot_idex (p : Params) (im dm : Memory) : (State.boot p im dm).idex = .bubble := rfl
@[simp] theorem boot_exmem (p : Params) (im dm : Memory) : (State.boot p im dm).exmem = .bubble := rfl
@[simp] theorem boot_memwb (p : Params) (im dm : Memory) : (State.boot p im dm).memwb = .bubble := rfl
@[simp] theorem boot_imem (p : Params) (im dm : Memory) : (State.boot p im dm).imem = im := rfl
@[simp] theorem boot_dmem (p : Params) (im dm : Memory) : (State.boot p im dm).dmem = dm := rfl
@[simp] theorem boot_params (p : Params) (im dm : Memory) : (State.boot p im dm).params = p := rfl
@[simp] theorem afterReset_params (s : State) : s.afterReset.params = s.params := rfl
@[simp] theorem afterReset_imem (s : State) : s.afterReset.imem = s.imem := rfl
@[simp] theorem afterReset_dmem (s : State) : s.afterReset.dmem = s.dmem := rfl

/-! ### The fetched state of `withFetchWord` -/

@[simp] theorem withFetchWord_pc (s : State) (n w : Nat) : (s.withFetchWord n w).pc = s.pc + 4#32 := rfl
@[simp] theorem withFetchWord_x (s : State) (n w : Nat) : (s.withFetchWord n w).x = s.x := rfl
@[simp] theorem withFetchWord_idex (s : State) (n w : Nat) : (s.withFetchWord n w).idex = s.idex := rfl
@[simp] theorem withFetchWord_exmem (s : State) (n w : Nat) : (s.withFetchWord n w).exmem = s.exmem := rfl
@[simp] theorem withFetchWord_memwb (s : State) (n w : Nat) : (s.withFetchWord n w).memwb = s.memwb := rfl
@[simp] theorem withFetchWord_params (s : State) (n w : Nat) : (s.withFetchWord n w).params = s.params := rfl
@[simp] theorem withFetchWord_dmem (s : State) (n w : Nat) : (s.withFetchWord n w).dmem = s.dmem := rfl
@[simp] theorem withFetchWord_ifid (s : State) (n w : Nat) :
    (s.withFetchWord n w).ifid = ⟨s.pc, BitVec.ofNat 32 (w % 2 ^ n)⟩ := rfl
@[simp] theorem withFetchWord_imem (s : State) (n w : Nat) :
    (s.withFetchWord n w).imem = writeWord s.imem (wordIndex s.pc) (BitVec.ofNat 32 (w % 2 ^ n)) := rfl

/-! ### The sequential reading -/

@[simp] theorem arch_pc (s : State) : s.arch.pc = s.nextInOrder := rfl
@[simp] theorem arch_x (s : State) : s.arch.x = s.regsAfterEx := rfl
@[simp] theorem arch_dmem (s : State) : s.arch.dmem = s.dmemAfterEx := rfl
@[simp] theorem setReg_pc (a : Arch) (rd : RegAddr) (v : Word) : (a.setReg rd v).pc = a.pc + 4#32 := rfl
@[simp] theorem setReg_x (a : Arch) (rd : RegAddr) (v : Word) : (a.setReg rd v).x = writeReg a.x true rd v := rfl
@[simp] theorem setReg_dmem (a : Arch) (rd : RegAddr) (v : Word) : (a.setReg rd v).dmem = a.dmem := rfl
@[simp] theorem branchTo_pc (a : Arch) (c : Bool) (t : Word) : (a.branchTo c t).pc = if c then t else a.pc + 4#32 := rfl
@[simp] theorem branchTo_x (a : Arch) (c : Bool) (t : Word) : (a.branchTo c t).x = a.x := rfl
@[simp] theorem branchTo_dmem (a : Arch) (c : Bool) (t : Word) : (a.branchTo c t).dmem = a.dmem := rfl
@[simp] theorem jumpTo_pc (a : Arch) (rd : RegAddr) (t : Word) : (a.jumpTo rd t).pc = t := rfl
@[simp] theorem jumpTo_x (a : Arch) (rd : RegAddr) (t : Word) :
    (a.jumpTo rd t).x = writeReg a.x true rd (a.pc + 4#32) := rfl
@[simp] theorem jumpTo_dmem (a : Arch) (rd : RegAddr) (t : Word) : (a.jumpTo rd t).dmem = a.dmem := rfl

end Sys2Proof.Machine
end

