-- ==== Sys2Proof/Laws/Cycle.lean ====
section
/-! SUPPORT. Everything one cycle can do, said once: the decoder's output of each instruction, exec and step as cycles,
and the inversion of a cycle that has a next state. -/

namespace Sys2Proof.Machine

/-- The decoder's output for an instruction (R88): what its meaning hands to `cycle`. -/
def idOutOf : Instr → IdOut
  | .add rd rs1 rs2 => idOutR .add rd rs1 rs2
  | .sub rd rs1 rs2 => idOutR .sub rd rs1 rs2
  | .sll rd rs1 rs2 => idOutR .sll rd rs1 rs2
  | .slt rd rs1 rs2 => idOutR .slt rd rs1 rs2
  | .xor rd rs1 rs2 => idOutR .xor rd rs1 rs2
  | .srl rd rs1 rs2 => idOutR .srl rd rs1 rs2
  | .sra rd rs1 rs2 => idOutR .sra rd rs1 rs2
  | .or rd rs1 rs2 => idOutR .or rd rs1 rs2
  | .and rd rs1 rs2 => idOutR .and rd rs1 rs2
  | .addi rd rs1 imm => idOutI (ctrlIAlu .add) rd rs1 imm
  | .slti rd rs1 imm => idOutI (ctrlIAlu .slt) rd rs1 imm
  | .slli rd rs1 funct7 shamt => idOutShift .sll rd rs1 funct7 shamt
  | .srli rd rs1 funct7 shamt => idOutShift .srl rd rs1 funct7 shamt
  | .srai rd rs1 funct7 shamt => idOutShift .sra rd rs1 funct7 shamt
  | .lw rd rs1 imm => idOutI ctrlLoad rd rs1 imm
  | .sw rs2 rs1 imm => idOutS rs2 rs1 imm
  | .beq rs1 rs2 offset => idOutB .beq rs1 rs2 offset
  | .bne rs1 rs2 offset => idOutB .bne rs1 rs2 offset
  | .blt rs1 rs2 offset => idOutB .blt rs1 rs2 offset
  | .bge rs1 rs2 offset => idOutB .bge rs1 rs2 offset
  | .jal rd offset => idOutJ rd offset
  | .jalr rd rs1 imm => idOutI ctrlJalr rd rs1 imm
  | .lui rd imm20 => idOutU ctrlLui rd imm20
  | .auipc rd imm20 => idOutU ctrlAuipc rd imm20

/-- Every instruction's meaning is the cycle with that instruction's decoder output. -/
theorem exec_eq_cycle (i : Instr) (s : State) : exec i s = cycle (idOutOf i) s := by cases i <;> rfl

/-- A cycle has a next state exactly when no access of it is out of range, and then it is the commit. -/
theorem cycle_next_iff (d : IdOut) (s t : State) : cycle d s = .next t ↔ s.Accessible ∧ t = s.commit d := by
  unfold cycle
  split
  · rename_i h
    constructor
    · rintro ⟨⟩
      exact ⟨h, rfl⟩
    · rintro ⟨-, rfl⟩
      rfl
  · rename_i h
    exact ⟨fun hc => (by cases hc), fun hc => absurd hc.1 h⟩

/-- A cycle faults exactly when some access of it is out of range, and the fault lists them all. -/
theorem cycle_fault_iff (d : IdOut) (s : State) (f : Fault) :
    cycle d s = .fault f ↔ ¬s.Accessible ∧ f = .outOfRange s.badAccesses := by
  unfold cycle
  split
  · rename_i h
    exact ⟨fun hc => (by cases hc), fun hc => absurd h hc.1⟩
  · rename_i h
    constructor
    · rintro ⟨⟩
      exact ⟨h, rfl⟩
    · rintro ⟨-, rfl⟩
      rfl

/-- No cycle is refused. -/
theorem cycle_ne_refused (d : IdOut) (s : State) (r : Refusal) : cycle d s ≠ .refused r := by
  unfold cycle
  split <;> intro h <;> cases h

/-- Which instruction a step hands to the cycle. -/
def stepIdOut (w : Word) : IdOut :=
  match decodeWord w with
  | .ok i => idOutOf i
  | .error _ => idOutDefault w

theorem step_eq_cycle (s : State) : step s = cycle (stepIdOut s.ifid.inst) s := by
  unfold step stepIdOut
  cases h : decodeWord s.ifid.inst with
  | ok i => simp [exec_eq_cycle]
  | error r => simp [execNoOp]

theorem step_next_iff (s t : State) : step s = .next t ↔ s.Accessible ∧ t = s.commit (stepIdOut s.ifid.inst) := by
  rw [step_eq_cycle, cycle_next_iff]

/-- Whatever word is in ID, the register addresses handed to the cycle are the raw fields of the word (R81). -/
theorem stepIdOut_fields (w : Word) :
    (stepIdOut w).rs1 = rs1Field w ∧ (stepIdOut w).rs2 = rs2Field w ∧ (stepIdOut w).rd = rdField w := by
  unfold stepIdOut
  split
  · rename_i i h
    unfold decodeWord decodeRType decodeIAlu decodeBranch at h
    simp only at h
    split_ifs at h <;>
      first
      | (cases h; done)
      | (cases h; simp [idOutOf, idOutR, idOutI, idOutShift, idOutS, idOutB, idOutU, idOutJ])
  · exact ⟨rfl, rfl, rfl⟩

/-- The load-use condition a step tests is the one of the word in IF/ID (R256). -/
theorem loadUseOn_stepIdOut (s : State) :
    s.loadUseOn (stepIdOut s.ifid.inst).rs1 (stepIdOut s.ifid.inst).rs2 = s.loadUse := by
  rw [(stepIdOut_fields _).1, (stepIdOut_fields _).2.1, State.loadUse]

/-- No out-of-range access: what it means for the fetch and for the access of the instruction in MEM. -/
theorem accessible_iff (s : State) :
    s.Accessible ↔ wordIndex s.pc < s.params.imemWords ∧
      (s.exmem.ctrl.memRead = true ∨ s.exmem.ctrl.memWrite = true → wordIndex s.exmem.aluResult < s.params.dmemWords) := by
  unfold State.Accessible State.badAccesses State.badLoad State.badStore State.badFetch
  by_cases hf : wordIndex s.pc < s.params.imemWords <;> by_cases hd : wordIndex s.exmem.aluResult < s.params.dmemWords <;>
    cases s.exmem.ctrl.memRead <;> cases s.exmem.ctrl.memWrite <;> simp [hf, hd]

end Sys2Proof.Machine
end

