-- ==== Sys2Proof/Laws/PerInstr.lean ====
section
/-! SUPPORT. Facts about every instruction as syntax, one lemma per constructor: the encoded word of a well-formed
instruction is a word of the instruction's own row of spec/opcode_table.json (family TableRow). -/

namespace Sys2Proof.Laws.TableRow

/-- The word of a well-formed instruction belongs to the table's row of that mnemonic. -/
def Statement (i : Instr) : Prop :=
  i.WellFormed → ∃ row ∈ opcodeTable, row.mnemonic = i.mnemonic ∧ row.matchesWord (encode i) = true

/-- A word whose opcode and funct3 are those of a pattern, and whose row examines no more, belongs to the row. -/
theorem and_mask_opcode (w : Word) : w &&& 0x0000007F#32 = (opcodeField w).setWidth 32 := by
  apply BitVec.eq_of_getLsbD_eq
  intro k hk
  simp only [BitVec.getLsbD_and, BitVec.getLsbD_setWidth, opcodeField, BitVec.getLsbD_extractLsb']
  interval_cases k <;> simp

theorem and_mask_funct3 (w : Word) :
    w &&& 0x0000707F#32 = (opcodeField w).setWidth 32 ||| ((funct3Field w).setWidth 32 <<< 12) := by
  apply BitVec.eq_of_getLsbD_eq
  intro k hk
  simp only [BitVec.getLsbD_and, BitVec.getLsbD_or, BitVec.getLsbD_shiftLeft, BitVec.getLsbD_setWidth, opcodeField,
    funct3Field, BitVec.getLsbD_extractLsb']
  interval_cases k <;> simp

theorem and_mask_bit30 (w : Word) :
    w &&& 0x4000707F#32 = (opcodeField w).setWidth 32 ||| ((funct3Field w).setWidth 32 <<< 12) |||
      (if bit30 w then 0x40000000#32 else 0#32) := by
  have h30 : w.getLsbD 30 = bit30 w := rfl
  apply BitVec.eq_of_getLsbD_eq
  intro k hk
  simp only [BitVec.getLsbD_and, BitVec.getLsbD_or, BitVec.getLsbD_shiftLeft, BitVec.getLsbD_setWidth, opcodeField,
    funct3Field, BitVec.getLsbD_extractLsb']
  cases hb : bit30 w <;> rw [hb] at h30 <;> interval_cases k <;> simp_all

theorem add (rd : RegAddr) (rs1 : RegAddr) (rs2 : RegAddr) :
    Statement (.add rd rs1 rs2) := by
  intro _
  refine ⟨⟨"ADD", 0x00000033#32, 0x4000707F#32⟩, by decide, rfl, ?_⟩
  simp [TableRow.matchesWord, and_mask_bit30, encode, opRType]

theorem sub (rd : RegAddr) (rs1 : RegAddr) (rs2 : RegAddr) :
    Statement (.sub rd rs1 rs2) := by
  intro _
  refine ⟨⟨"SUB", 0x40000033#32, 0x4000707F#32⟩, by decide, rfl, ?_⟩
  simp [TableRow.matchesWord, and_mask_bit30, encode, opRType]

theorem sll (rd : RegAddr) (rs1 : RegAddr) (rs2 : RegAddr) :
    Statement (.sll rd rs1 rs2) := by
  intro _
  refine ⟨⟨"SLL", 0x00001033#32, 0x0000707F#32⟩, by decide, rfl, ?_⟩
  simp [TableRow.matchesWord, and_mask_funct3, encode, opRType]

theorem slt (rd : RegAddr) (rs1 : RegAddr) (rs2 : RegAddr) :
    Statement (.slt rd rs1 rs2) := by
  intro _
  refine ⟨⟨"SLT", 0x00002033#32, 0x0000707F#32⟩, by decide, rfl, ?_⟩
  simp [TableRow.matchesWord, and_mask_funct3, encode, opRType]

theorem xor (rd : RegAddr) (rs1 : RegAddr) (rs2 : RegAddr) :
    Statement (.xor rd rs1 rs2) := by
  intro _
  refine ⟨⟨"XOR", 0x00004033#32, 0x0000707F#32⟩, by decide, rfl, ?_⟩
  simp [TableRow.matchesWord, and_mask_funct3, encode, opRType]

theorem srl (rd : RegAddr) (rs1 : RegAddr) (rs2 : RegAddr) :
    Statement (.srl rd rs1 rs2) := by
  intro _
  refine ⟨⟨"SRL", 0x00005033#32, 0x4000707F#32⟩, by decide, rfl, ?_⟩
  simp [TableRow.matchesWord, and_mask_bit30, encode, opRType]

theorem sra (rd : RegAddr) (rs1 : RegAddr) (rs2 : RegAddr) :
    Statement (.sra rd rs1 rs2) := by
  intro _
  refine ⟨⟨"SRA", 0x40005033#32, 0x4000707F#32⟩, by decide, rfl, ?_⟩
  simp [TableRow.matchesWord, and_mask_bit30, encode, opRType]

theorem or (rd : RegAddr) (rs1 : RegAddr) (rs2 : RegAddr) :
    Statement (.or rd rs1 rs2) := by
  intro _
  refine ⟨⟨"OR", 0x00006033#32, 0x0000707F#32⟩, by decide, rfl, ?_⟩
  simp [TableRow.matchesWord, and_mask_funct3, encode, opRType]

theorem and (rd : RegAddr) (rs1 : RegAddr) (rs2 : RegAddr) :
    Statement (.and rd rs1 rs2) := by
  intro _
  refine ⟨⟨"AND", 0x00007033#32, 0x0000707F#32⟩, by decide, rfl, ?_⟩
  simp [TableRow.matchesWord, and_mask_funct3, encode, opRType]

theorem addi (rd : RegAddr) (rs1 : RegAddr) (imm : BitVec 12) :
    Statement (.addi rd rs1 imm) := by
  intro _
  refine ⟨⟨"ADDI", 0x00000013#32, 0x0000707F#32⟩, by decide, rfl, ?_⟩
  simp [TableRow.matchesWord, and_mask_funct3, encode, opIAlu]

theorem slti (rd : RegAddr) (rs1 : RegAddr) (imm : BitVec 12) :
    Statement (.slti rd rs1 imm) := by
  intro _
  refine ⟨⟨"SLTI", 0x00002013#32, 0x0000707F#32⟩, by decide, rfl, ?_⟩
  simp [TableRow.matchesWord, and_mask_funct3, encode, opIAlu]

theorem slli (rd : RegAddr) (rs1 : RegAddr) (funct7 : BitVec 7) (shamt : BitVec 5) :
    Statement (.slli rd rs1 funct7 shamt) := by
  intro _
  refine ⟨⟨"SLLI", 0x00001013#32, 0x0000707F#32⟩, by decide, rfl, ?_⟩
  simp [TableRow.matchesWord, and_mask_funct3, encode, opIAlu]

theorem srli (rd : RegAddr) (rs1 : RegAddr) (funct7 : BitVec 7) (shamt : BitVec 5) :
    Statement (.srli rd rs1 funct7 shamt) := by
  intro h
  have hb : funct7.getLsbD 5 = false := by simpa [Instr.WellFormed, Instr.illFormed] using h
  refine ⟨⟨"SRLI", 0x00005013#32, 0x4000707F#32⟩, by decide, rfl, ?_⟩
  simp [TableRow.matchesWord, and_mask_bit30, encode, opIAlu, hb, -BitVec.getLsbD_eq_getElem]

theorem srai (rd : RegAddr) (rs1 : RegAddr) (funct7 : BitVec 7) (shamt : BitVec 5) :
    Statement (.srai rd rs1 funct7 shamt) := by
  intro h
  have hb : funct7.getLsbD 5 = true := by simpa [Instr.WellFormed, Instr.illFormed] using h
  refine ⟨⟨"SRAI", 0x40005013#32, 0x4000707F#32⟩, by decide, rfl, ?_⟩
  simp [TableRow.matchesWord, and_mask_bit30, encode, opIAlu, hb, -BitVec.getLsbD_eq_getElem]

theorem lw (rd : RegAddr) (rs1 : RegAddr) (imm : BitVec 12) :
    Statement (.lw rd rs1 imm) := by
  intro _
  refine ⟨⟨"LW", 0x00000003#32, 0x0000007F#32⟩, by decide, rfl, ?_⟩
  simp [TableRow.matchesWord, and_mask_opcode, encode, opLoad]

theorem sw (rs2 : RegAddr) (rs1 : RegAddr) (imm : BitVec 12) :
    Statement (.sw rs2 rs1 imm) := by
  intro _
  refine ⟨⟨"SW", 0x00000023#32, 0x0000007F#32⟩, by decide, rfl, ?_⟩
  simp [TableRow.matchesWord, and_mask_opcode, encode, opStore]

theorem beq (rs1 : RegAddr) (rs2 : RegAddr) (offset : BitVec 13) :
    Statement (.beq rs1 rs2 offset) := by
  intro _
  refine ⟨⟨"BEQ", 0x00000063#32, 0x0000707F#32⟩, by decide, rfl, ?_⟩
  simp [TableRow.matchesWord, and_mask_funct3, encode, opBranch]

theorem bne (rs1 : RegAddr) (rs2 : RegAddr) (offset : BitVec 13) :
    Statement (.bne rs1 rs2 offset) := by
  intro _
  refine ⟨⟨"BNE", 0x00001063#32, 0x0000707F#32⟩, by decide, rfl, ?_⟩
  simp [TableRow.matchesWord, and_mask_funct3, encode, opBranch]

theorem blt (rs1 : RegAddr) (rs2 : RegAddr) (offset : BitVec 13) :
    Statement (.blt rs1 rs2 offset) := by
  intro _
  refine ⟨⟨"BLT", 0x00004063#32, 0x0000707F#32⟩, by decide, rfl, ?_⟩
  simp [TableRow.matchesWord, and_mask_funct3, encode, opBranch]

theorem bge (rs1 : RegAddr) (rs2 : RegAddr) (offset : BitVec 13) :
    Statement (.bge rs1 rs2 offset) := by
  intro _
  refine ⟨⟨"BGE", 0x00005063#32, 0x0000707F#32⟩, by decide, rfl, ?_⟩
  simp [TableRow.matchesWord, and_mask_funct3, encode, opBranch]

theorem jal (rd : RegAddr) (offset : BitVec 21) :
    Statement (.jal rd offset) := by
  intro _
  refine ⟨⟨"JAL", 0x0000006F#32, 0x0000007F#32⟩, by decide, rfl, ?_⟩
  simp [TableRow.matchesWord, and_mask_opcode, encode, opJal]

theorem jalr (rd : RegAddr) (rs1 : RegAddr) (imm : BitVec 12) :
    Statement (.jalr rd rs1 imm) := by
  intro _
  refine ⟨⟨"JALR", 0x00000067#32, 0x0000007F#32⟩, by decide, rfl, ?_⟩
  simp [TableRow.matchesWord, and_mask_opcode, encode, opJalr]

theorem lui (rd : RegAddr) (imm20 : BitVec 20) :
    Statement (.lui rd imm20) := by
  intro _
  refine ⟨⟨"LUI", 0x00000037#32, 0x0000007F#32⟩, by decide, rfl, ?_⟩
  simp [TableRow.matchesWord, and_mask_opcode, encode, opLui]

theorem auipc (rd : RegAddr) (imm20 : BitVec 20) :
    Statement (.auipc rd imm20) := by
  intro _
  refine ⟨⟨"AUIPC", 0x00000017#32, 0x0000007F#32⟩, by decide, rfl, ?_⟩
  simp [TableRow.matchesWord, and_mask_opcode, encode, opAuipc]

end Sys2Proof.Laws.TableRow
end

