-- ==== Sys2Proof/Laws/Pipeline.lean ====
section
/-! SUPPORT. The operations of a cycle, one lemma each: what forwarding answers, what a decoder bundle can be, and how the
registers and the data memory that the instructions in flight leave pass from one cycle to the next. -/

namespace Sys2Proof.Machine

/-- Everything forwarding can answer (R258). -/
theorem forward_eq (s : State) (r : RegAddr) (v : Word) : s.forward r v =
    if s.exmem.ctrl.regWrite = true ∧ r = s.exmem.rdAddr ∧ r ≠ 0#5 then s.exmem.aluResult
    else if s.memwb.ctrl.regWrite = true ∧ r = s.memwb.rdAddr ∧ r ≠ 0#5 then s.wbData else v := by
  have h : ∀ (c : Bool) (d : RegAddr), (c && d != 0#5 && d == r) = decide (c = true ∧ r = d ∧ r ≠ 0#5) := by
    intro c d
    by_cases h : d = r
    · subst h
      rw [Bool.eq_iff_iff]
      simp
    · have h' : ¬r = d := fun x => h x.symm
      simp [h, h']
  unfold State.forward State.forwardSel
  rw [h, h]
  by_cases h1 : s.exmem.ctrl.regWrite = true ∧ r = s.exmem.rdAddr ∧ r ≠ 0#5
  · rw [if_pos h1, if_pos (decide_eq_true h1)]
  · rw [if_neg h1, if_neg (by simpa using h1)]
    by_cases h2 : s.memwb.ctrl.regWrite = true ∧ r = s.memwb.rdAddr ∧ r ≠ 0#5
    · rw [if_pos h2, if_pos (decide_eq_true h2)]
    · rw [if_neg h2, if_neg (by simpa using h2)]

/-- What forwarding answers in the cycle after a commit: the instruction now in MEM is the one that was in EX. -/
theorem forward_commit (s : State) (d : IdOut) (r : RegAddr) (v : Word) : (s.commit d).forward r v =
    if s.idex.ctrl.regWrite = true ∧ r = s.idex.rd ∧ r ≠ 0#5 then s.aluOut.result
    else if s.exmem.ctrl.regWrite = true ∧ r = s.exmem.rdAddr ∧ r ≠ 0#5 then
      (if s.exmem.ctrl.memToReg then s.memData else s.exmem.aluResult) else v :=
  forward_eq _ _ _

/-- memToReg and memRead are the same bit in every bundle the decoder produces (R91, R92). -/
theorem memToReg_of_bundle {c : ControlSignals} (h : c ∈ decoderBundles) : c.memToReg = c.memRead := by
  revert c
  decide

/-- A bundle that reads memory is the one of LOAD (R91). -/
theorem eq_ctrlLoad_of_memRead {c : ControlSignals} (h : c ∈ decoderBundles) (hr : c.memRead = true) : c = ctrlLoad := by
  revert c
  decide

/-- The registers once WB and MEM have committed, one cycle on, are those once WB, MEM and EX have committed. -/
theorem regsAfterMem_commit (s : State) (d : IdOut) : (s.commit d).regsAfterMem = s.regsAfterEx := rfl

/-- The data memory once EX has stored is the data memory of the second next state. -/
theorem nextDmem_commit (s : State) (d : IdOut) : (s.commit d).nextDmem = s.dmemAfterEx := rfl

/-- What ID reads is the register file after the cycle (R23, R24). -/
theorem idRead_eq (s : State) (a : RegAddr) : s.idRead a = readReg s.nextRegs a := readPort_eq _ _ _ _ _

/-- With neither a stall nor a redirect the instruction in ID moves to EX. -/
theorem commit_idex_advance (s : State) (d : IdOut) (ht : s.taken = false) (hl : s.loadUseOn d.rs1 d.rs2 = false) :
    (s.commit d).idex = s.idexIn d := by
  rw [commit_idex, ht, hl]
  rfl

/-- A stall or a redirect leaves a bubble in EX, which redirects nothing. -/
theorem commit_idex_bubble (s : State) (d : IdOut) (h : s.taken = true ∨ s.loadUseOn d.rs1 d.rs2 = true) :
    (s.commit d).idex = .bubble ∧ (s.commit d).taken = false := by
  have hid : (s.commit d).idex = .bubble := by
    rw [commit_idex]
    rcases h with h | h <;> rw [h] <;> simp
  refine ⟨hid, ?_⟩
  rw [State.taken, State.aluOut, hid]
  rfl

end Sys2Proof.Machine
end

