-- ==== Sys2Proof/Laws/Run.lean ====
section
/-! SUPPORT. Runs of several cycles, peeled one cycle at a time, and the one induction over them. -/

namespace Sys2Proof.Machine

/-- A run of the host's machine is a run of cycles. -/
theorem core_run_eq (k : Nat) (s : State) : Sys2Proof.core.run k s = runCycles k s := by
  induction k generalizing s with
  | zero => rfl
  | succ k ih =>
    have h1 := Host.Core.run.eq_2 Sys2Proof.core s k
    rw [runCycles]
    cases h : step s with
    | next u =>
      have h2 : Sys2Proof.core.step s = .next u := h
      rw [h2] at h1
      exact h1.trans (ih u)
    | fault r =>
      have h2 : Sys2Proof.core.step s = .fault r := h
      rw [h2] at h1
      exact h1
    | refused r =>
      have h2 : Sys2Proof.core.step s = .refused r := h
      rw [h2] at h1
      exact h1

@[simp] theorem runCycles_zero (s t : State) : runCycles 0 s = .next t ↔ s = t :=
  ⟨fun h => by cases h; rfl, fun h => h ▸ rfl⟩

/-- A run of `k + 1` cycles is one cycle and a run of `k`. -/
theorem runCycles_succ (k : Nat) (s t : State) :
    runCycles (k + 1) s = .next t ↔ ∃ u, step s = .next u ∧ runCycles k u = .next t := by
  rw [runCycles]
  cases step s with
  | next u =>
    constructor
    · intro h
      exact ⟨u, rfl, h⟩
    · rintro ⟨v, hv, h⟩
      cases hv
      exact h
  | fault r => simp
  | refused r => simp

/-- What every step keeps, every run keeps. -/
theorem runCycles_preserves {P : State → Prop} (hstep : ∀ s t, P s → step s = .next t → P t) (k : Nat) (s t : State)
    (hs : P s) (h : runCycles k s = .next t) : P t := by
  induction k generalizing s with
  | zero => exact (runCycles_zero s t).1 h ▸ hs
  | succ k ih =>
    obtain ⟨u, hu, h⟩ := (runCycles_succ k s t).1 h
    exact ih u (hstep s u hs hu) h

/-- Two runs, one after the other. -/
theorem runCycles_add {a b : Nat} {s t u : State} (h1 : runCycles a s = .next t) (h2 : runCycles b t = .next u) :
    runCycles (a + b) s = .next u := by
  induction a generalizing s with
  | zero =>
    cases h1
    simpa using h2
  | succ a ih =>
    obtain ⟨v, hv, h⟩ := (runCycles_succ _ _ _).1 h1
    rw [Nat.succ_add]
    exact (runCycles_succ _ _ _).2 ⟨v, hv, ih h⟩

/-! ### The harness (R332 to R334) -/

/-- What `loadRun` can answer: the boot state of an image that fits, with admitted data. -/
theorem loadRun_eq_some {p : Params} {image : List Word} {dmem : Memory} {s : State} :
    loadRun p image dmem = some s ↔
      image.length ≤ p.imemWords ∧ (dmem.wf ∧ dmem.within p.dmemWords) ∧
      s = State.boot p (placeWords [] 0 image) dmem := by
  have hd : isDataInit p dmem = true ↔ dmem.wf ∧ dmem.within p.dmemWords := decide_eq_true_iff
  rw [← hd]
  unfold loadRun imageMemory
  by_cases h : image.length ≤ p.imemWords
  · rw [if_pos h]
    cases isDataInit p dmem <;> simp [h, @eq_comm _ s]
  · simp [h]

/-- A drain that ends is a run of its cycles, and reports what it was given. -/
theorem drainRun_ended {t : Nat} {z : Word} {ob : ProgramObligations} {k : Nat} {s : State} {t' : Nat} {z' : Word}
    {ob' : ProgramObligations} {e : State} (h : drainRun t z ob k s = .ended t' z' ob' e) :
    t' = t ∧ z' = z ∧ ob' = ob ∧ runCycles k s = .next e := by
  induction k generalizing s with
  | zero =>
    cases h
    exact ⟨rfl, rfl, rfl, rfl⟩
  | succ k ih =>
    rw [drainRun] at h
    cases hs : step s with
    | next u =>
      rw [hs] at h
      obtain ⟨h1, h2, h3, h4⟩ := ih h
      exact ⟨h1, h2, h3, (runCycles_succ _ _ _).2 ⟨u, hs, h4⟩⟩
    | fault r =>
      rw [hs] at h
      cases h
    | refused r =>
      rw [hs] at h
      cases h

/-- Everything a run that ends can be: `n` cycles to its stop cycle, the stop cycle, and the drain. -/
theorem runFrom_ended {fuel t : Nat} {h : RunHistory} {s : State} {t' : Nat} {z : Word} {ob : ProgramObligations}
    {e : State} (hr : runFrom fuel t h s = .ended t' z ob e) :
    ∃ n s1 s2 h1, n < fuel ∧ t' = t + n ∧ runCycles n s = .next s1 ∧ step s1 = .next s2 ∧ s1.stopsHere = true ∧
      z = s1.pc ∧ ob = .atStop h1 s1 s2 ∧ runCycles (Config.drain - 1) s2 = .next e ∧
      (h1.stalled = true ↔
        (n = 0 ∧ h.stalled = true) ∨ (0 < n ∧ ∃ u, runCycles (n - 1) s = .next u ∧ u.loadUse = true)) ∧
      (∀ x, x ∈ h1.redirected ↔ x ∈ h.redirected ∨
        ∃ k u, k < n ∧ runCycles k s = .next u ∧ u.taken = true ∧ x = wordIndex u.idex.pc) := by
  induction fuel generalizing t h s with
  | zero => cases hr
  | succ fuel ih =>
    rw [runFrom] at hr
    cases hs : step s with
    | fault r =>
      rw [hs] at hr
      cases hr
    | refused r =>
      rw [hs] at hr
      cases hr
    | next s' =>
      rw [hs] at hr
      simp only at hr
      split at hr
      · rename_i hst
        obtain ⟨rfl, rfl, rfl, hd⟩ := drainRun_ended hr
        exact ⟨0, s, s', h, by omega, rfl, rfl, hs, hst, rfl, rfl, hd, by simp, by simp⟩
      · obtain ⟨n, s1, s2, h1, h0, h2, h3, h4, h5, h6, h7, h8, h9, h10⟩ := ih hr
        refine ⟨n + 1, s1, s2, h1, by omega, by omega, (runCycles_succ _ _ _).2 ⟨_, hs, h3⟩, h4, h5, h6, h7, h8, ?_, ?_⟩
        · rw [h9]
          cases n <;> simp [RunHistory.after, runCycles_succ, hs]
        · intro x
          rw [h10]
          constructor
          · rintro (hx | ⟨k, u, hk, hu, htk, hx⟩)
            · simp only [RunHistory.after] at hx
              split at hx
              · rename_i ht
                rcases List.mem_cons.1 hx with hx | hx
                · exact .inr ⟨0, s, by omega, rfl, ht, hx⟩
                · exact .inl hx
              · exact .inl hx
            · exact .inr ⟨k + 1, u, by omega, (runCycles_succ _ _ _).2 ⟨_, hs, hu⟩, htk, hx⟩
          · rintro (hx | ⟨k, u, hk, hu, htk, hx⟩)
            · left
              simp only [RunHistory.after]
              split
              · exact List.mem_cons_of_mem _ hx
              · exact hx
            · cases k with
              | zero =>
                cases hu
                left
                simp [RunHistory.after, htk, hx]
              | succ k =>
                obtain ⟨v, hv, hu⟩ := (runCycles_succ _ _ _).1 hu
                rw [hs] at hv
                cases hv
                exact .inr ⟨k, u, by omega, hu, htk, hx⟩

end Sys2Proof.Machine
end

