-- ==== Sys2Proof/Tests/Slice0.lean ====
section
/-! SUPPORT. The model's own tests: the WellFormed smoke tests, the words and values of spec/95_test_vectors.md, the
placing of a word for the next step, and a witness for every obligation that has hypotheses. Every expected value is one
the spec writes out (section 2 of that file, named before each group) or a hand calculation from the rule named. -/

namespace Sys2Proof.Tests

open Sys2Proof Sys2Proof.Machine

/-! ### Helpers: small states -/

/-- A register file with a few registers set. -/
def regs : List (RegAddr × Word) → RegFile
  | [] => Vector.replicate 32 0#32
  | (r, v) :: l => writeReg (regs l) true r v

/-- A memory with a few words set. -/
def words : List (Nat × Word) → Memory
  | [] => []
  | (i, v) :: l => writeWord (words l) i v

/-- The word `w`, fetched from address `pc`, is in ID; bubbles elsewhere. -/
def ready (w pc : Word) (x : List (RegAddr × Word)) (dm : List (Nat × Word)) : State :=
  { State.reset with
    pc := pc + 4#32, x := regs x, ifid := ⟨pc, w⟩, imem := words [(wordIndex pc, w)], dmem := words dm }

/-- The architectural state after one step. -/
def archAfter (s : State) : Option Arch :=
  match step s with
  | .next t => some t.arch
  | _ => none

/-- Register `r` after one step. -/
def regAfter (s : State) (r : RegAddr) : Option Word := (archAfter s).map fun a => a.reg r

/-- The address of the next instruction after one step. -/
def pcAfter (s : State) : Option Word := (archAfter s).map fun a => a.pc

/-- Data word `i` after one step. -/
def wordAfter (s : State) (i : Nat) : Option Word := (archAfter s).map fun a => readWord a.dmem i

/-- The next state, where there is one. -/
def nextOf (s : State) : State :=
  match step s with
  | .next t => t
  | _ => s

/-- The step has a next state. -/
def goes (s : State) : Bool :=
  match step s with
  | .next _ => true
  | _ => false

theorem step_nextOf {s : State} (h : goes s = true) : step s = .next (nextOf s) := by
  unfold goes at h
  unfold nextOf
  split at h
  · rename_i hs
    rw [hs]
  · cases h

/-- The list of out-of-range accesses of a faulting step. -/
def faultOf (s : State) : Option (List Access) :=
  match step s with
  | .fault (.outOfRange l) => some l
  | _ => none

theorem step_faultOf {s : State} {l : List Access} (h : faultOf s = some l) : step s = .fault (.outOfRange l) := by
  unfold faultOf at h
  split at h
  · rename_i hs
    cases h
    exact hs
  · cases h

/-- The invariant as a computation. -/
def invCheck (s : State) : Bool :=
  decide (s.params.imemWords < 2 ^ 30) && decide s.imem.wf && decide s.dmem.wf && decide (s.imem.within s.params.imemWords) &&
  decide (s.dmem.within s.params.dmemWords) && decide (storedReg s.x 0#5 = 0#32) &&
  decide (s.idex.rs1 = 0#5 → s.idex.rs1Data = 0#32) && decide (s.idex.rs2 = 0#5 → s.idex.rs2Data = 0#32) &&
  decide (s.idex.ctrl ∈ decoderBundles) && decide (s.exmem.ctrl ∈ decoderBundles) &&
  decide (s.memwb.ctrl ∈ decoderBundles) &&
  decide (s.ifid = IfId.bubble ∨
    (wordIndex s.ifid.pc < s.params.imemWords ∧ s.ifid.inst = imemRead s.imem s.ifid.pc ∧ s.pc = s.ifid.pc + 4#32))

theorem inv_of_check {s : State} (h : invCheck s = true) : s.Inv := by
  simp only [invCheck, Bool.and_eq_true, decide_eq_true_eq] at h
  obtain ⟨⟨⟨⟨⟨⟨⟨⟨⟨⟨⟨h0, h1⟩, h2⟩, h3⟩, h4⟩, h5⟩, h6⟩, h7⟩, h8⟩, h9⟩, h10⟩, h11⟩ := h
  exact ⟨h0, h1, h2, h3, h4, h5, h6, h7, h8, h9, h10, h11⟩

/-- `Issues` as a computation. -/
def issuesCheck (i : Instr) (s : State) : Bool :=
  invCheck s && decide (decodeWord s.ifid.inst = .ok i) && decide s.Accessible && !s.loadUse && !s.taken

theorem issues_of_check {i : Instr} {s : State} (h : issuesCheck i s = true) : Issues i s := by
  simp only [issuesCheck, Bool.and_eq_true, decide_eq_true_eq, Bool.not_eq_true'] at h
  obtain ⟨⟨⟨⟨h1, h2⟩, h3⟩, h4⟩, h5⟩ := h
  exact ⟨inv_of_check h1, h2, h3, h4, h5⟩

/-! ### WellFormed: one ill-formed term for each check -/

theorem test_illFormed_oddBranchOffset : (Instr.beq 1 2 3#13).illFormed = some .oddOffset := by decide
theorem test_illFormed_oddJumpOffset : (Instr.jal 1 0x100001#21).illFormed = some .oddOffset := by decide
theorem test_illFormed_srliWithBit30 : (Instr.srli 1 2 0b0100000#7 4).illFormed = some .srliWithBit30 := by decide
theorem test_illFormed_sraiWithoutBit30 : (Instr.srai 1 2 0b1011111#7 4).illFormed = some .sraiWithoutBit30 := by decide

/-! ### Decoding: words of section 2.1, and one word for every other row (R82, R90, R94 to R96) -/

theorem test_decode_add : decodeWord 0x003100B3#32 = .ok (.add 1 2 3) := by decide
theorem test_decode_sub : decodeWord 0x403100B3#32 = .ok (.sub 1 2 3) := by decide
theorem test_decode_sll : decodeWord 0x003110B3#32 = .ok (.sll 1 2 3) := by decide
theorem test_decode_slt : decodeWord 0x003120B3#32 = .ok (.slt 1 2 3) := by decide
theorem test_decode_xor : decodeWord 0x003140B3#32 = .ok (.xor 1 2 3) := by decide
theorem test_decode_srl : decodeWord 0x003150B3#32 = .ok (.srl 1 2 3) := by decide
theorem test_decode_sra : decodeWord 0x403150B3#32 = .ok (.sra 1 2 3) := by decide
theorem test_decode_or : decodeWord 0x003160B3#32 = .ok (.or 1 2 3) := by decide
theorem test_decode_and : decodeWord 0x003170B3#32 = .ok (.and 1 2 3) := by decide
theorem test_decode_addi : decodeWord 0xFFF10093#32 = .ok (.addi 1 2 0xFFF#12) := by decide
theorem test_decode_slti : decodeWord 0xFFF12093#32 = .ok (.slti 1 2 0xFFF#12) := by decide
theorem test_decode_slli : decodeWord 0x41F11093#32 = .ok (.slli 1 2 0b0100000#7 31) := by decide
theorem test_decode_srli : decodeWord 0x00415093#32 = .ok (.srli 1 2 0#7 4) := by decide
theorem test_decode_srai : decodeWord 0xC0415093#32 = .ok (.srai 1 2 0b1100000#7 4) := by decide
theorem test_decode_lw : decodeWord 0x00812083#32 = .ok (.lw 1 2 8#12) := by decide
theorem test_decode_lb_as_lw : decodeWord 0x00010083#32 = .ok (.lw 1 2 0#12) := by decide
theorem test_decode_sw : decodeWord 0xFE312E23#32 = .ok (.sw 3 2 0xFFC#12) := by decide
theorem test_decode_sb_as_sw : decodeWord 0x00310023#32 = .ok (.sw 3 2 0#12) := by decide
theorem test_decode_beq : decodeWord 0x80000063#32 = .ok (.beq 0 0 0x1000#13) := by decide
theorem test_decode_bne : decodeWord 0xFE209EE3#32 = .ok (.bne 1 2 0x1FFC#13) := by decide
theorem test_decode_blt : decodeWord 0xFE20CCE3#32 = .ok (.blt 1 2 0x1FF8#13) := by decide
theorem test_decode_bge : decodeWord 0xFE20DCE3#32 = .ok (.bge 1 2 0x1FF8#13) := by decide
theorem test_decode_jal : decodeWord 0x80000EEF#32 = .ok (.jal 29 0x100000#21) := by decide
theorem test_decode_jal_forward : decodeWord 0x7FFFF06F#32 = .ok (.jal 0 0x0FFFFE#21) := by decide
theorem test_decode_jalr : decodeWord 0x005100E7#32 = .ok (.jalr 1 2 5#12) := by decide
theorem test_decode_jalr_funct3 : decodeWord 0x005150E7#32 = .ok (.jalr 1 2 5#12) := by decide
theorem test_decode_lui : decodeWord 0x123452B7#32 = .ok (.lui 5 0x12345#20) := by decide
theorem test_decode_auipc : decodeWord 0x00001297#32 = .ok (.auipc 5 1#20) := by decide
theorem test_decode_mul_as_add : decodeWord 0x023100B3#32 = .ok (.add 1 2 3) := by decide
theorem test_decode_sltu : decodeWord 0x003130B3#32 = .error (.unsupportedFunct3 opRType 0b011#3) := by decide
theorem test_decode_xori : decodeWord 0xFFF14093#32 = .error (.unsupportedFunct3 opIAlu 0b100#3) := by decide
theorem test_decode_bltu : decodeWord 0x0020E463#32 = .error (.unsupportedFunct3 opBranch 0b110#3) := by decide
theorem test_decode_zeroWord : decodeWord 0#32 = .error (.unrecognisedOpcode 0#7) := by decide
theorem test_decode_truncated : decodeBytes [0x33#8, 0#8, 0x31#8] = .error .truncated := by decide
/-- The bytes of 0x403100B3, least significant first. -/
theorem test_decode_bytes :
    decodeBytes [0xB3#8, 0x00#8, 0x31#8, 0x40#8, 0x13#8] = .ok (.sub 1 2 3, [0x13#8]) := by decide
theorem test_encode_sw : encode (.sw 3 2 0xFFC#12) = 0xFE312E23#32 := by decide
theorem test_encode_beq : encode (.beq 0 0 0x0FFE#13) = 0x7E000FE3#32 := by decide
theorem test_encode_jal : encode (.jal 0 0x1FFFF8#21) = 0xFF9FF06F#32 := by decide
/-- Control bits, immediate and raw fields of `sw x3, -4(x2)` in section 2.1: rd is extracted as 28. -/
theorem test_signals_sw :
    decodeSignals 0xFE312E23#32 =
      ⟨{ memWrite := true, aluSrcImmediate := true, aluOp := .add }, 2, 3, 28, 0xFFFFFFFC#32⟩ := by decide
theorem test_signals_lw :
    decodeSignals 0x00812083#32 =
      ⟨{ regWrite := true, memRead := true, aluSrcImmediate := true, memToReg := true, aluOp := .add }, 2, 8, 1, 8#32⟩ := by
  decide
theorem test_signals_jal :
    decodeSignals 0xFF9FF06F#32 = ⟨{ regWrite := true, jump := true, aluOp := .jal }, 31, 25, 0, 0xFFFFFFF8#32⟩ := by
  decide

/-! ### Placing a word for the next step -/

/-- Every row of the table: the decoder gives the row's instruction. -/
theorem test_decodeTableWord :
    ∀ row ∈ opcodeTable, (decodeTableWord 32 row.pattern.toNat).map Instr.mnemonic = some row.mnemonic := by decide
/-- Every row of the table runs as the first instruction after reset. -/
theorem test_withFetchWord_runs :
    ∀ row ∈ opcodeTable, goes (State.reset.withFetchWord 32 row.pattern.toNat) = true := by decide
theorem test_withFetchWord_fetched :
    (State.reset.withFetchWord 32 0x00500093).ifid = ⟨0#32, 0x00500093#32⟩ := by decide

/-! ### Results: the values of sections 2.2 to 2.8 -/

/-- `op x1, x2, x3` on two operand values. -/
def rr (w a b : Word) : Option Word := regAfter (ready w 0#32 [(2, a), (3, b)] []) 1

/-- `op x1, x2, imm` on an operand value. -/
def ri (w a : Word) : Option Word := regAfter (ready w 0#32 [(2, a)] []) 1

theorem test_add_signedOverflow : rr 0x003100B3#32 0x7FFFFFFF#32 0x00000001#32 = some 0x80000000#32 := by decide
theorem test_add_carryDiscarded : rr 0x003100B3#32 0xFFFFFFFF#32 0x00000001#32 = some 0x00000000#32 := by decide
theorem test_sub_borrowWraps : rr 0x403100B3#32 0x00000000#32 0x00000001#32 = some 0xFFFFFFFF#32 := by decide
theorem test_sub_signedOverflow : rr 0x403100B3#32 0x80000000#32 0x00000001#32 = some 0x7FFFFFFF#32 := by decide
theorem test_sll_by31 : rr 0x003110B3#32 0x00000001#32 0x0000001F#32 = some 0x80000000#32 := by decide
theorem test_sll_lowFiveBits : rr 0x003110B3#32 0xFFFFFFFF#32 0x00000024#32 = some 0xFFFFFFF0#32 := by decide
theorem test_slt_negative : rr 0x003120B3#32 0xFFFFFFFF#32 0x00000000#32 = some 0x00000001#32 := by decide
theorem test_slt_maxMin : rr 0x003120B3#32 0x7FFFFFFF#32 0x80000000#32 = some 0x00000000#32 := by decide
theorem test_xor : rr 0x003140B3#32 0xF0F0F0F0#32 0xFFFF0000#32 = some 0x0F0FF0F0#32 := by decide
theorem test_srl_by33 : rr 0x003150B3#32 0x80000000#32 0x00000021#32 = some 0x40000000#32 := by decide
theorem test_sra_signFill : rr 0x403150B3#32 0x80000000#32 0x00000004#32 = some 0xF8000000#32 := by decide
theorem test_sra_lowFiveBits : rr 0x403150B3#32 0xFFFFFFFF#32 0xFFFFFFE1#32 = some 0xFFFFFFFF#32 := by decide
theorem test_or : rr 0x003160B3#32 0xF0F00000#32 0x0F0F00FF#32 = some 0xFFFF00FF#32 := by decide
theorem test_and : rr 0x003170B3#32 0xF0F0FFFF#32 0x0FF0F00F#32 = some 0x00F0F00F#32 := by decide
theorem test_addi_minusOne : ri 0xFFF10093#32 0x00000000#32 = some 0xFFFFFFFF#32 := by decide
theorem test_addi_wraps : ri 0x7FF10093#32 0x7FFFFFFF#32 = some 0x800007FE#32 := by decide
theorem test_slti_signed : ri 0xFFF12093#32 0x80000000#32 = some 0x00000001#32 := by decide
theorem test_slti_equal : ri 0xFFF12093#32 0xFFFFFFFF#32 = some 0x00000000#32 := by decide
theorem test_slli_by31 : ri 0x01F11093#32 0x00000003#32 = some 0x80000000#32 := by decide
theorem test_slli_bit30Ignored : ri 0x41F11093#32 0x00000001#32 = some 0x80000000#32 := by decide
theorem test_srli_zeroFill : ri 0x00415093#32 0x80000000#32 = some 0x08000000#32 := by decide
theorem test_srai_signFill : ri 0x40415093#32 0x80000000#32 = some 0xF8000000#32 := by decide
theorem test_srai_bit31Ignored : ri 0xC0415093#32 0x80000000#32 = some 0xF8000000#32 := by decide
theorem test_lw_negativeOffset :
    regAfter (ready 0xFFC12083#32 0#32 [(2, 0x10#32)] [(3, 0x11#32)]) 1 = some 0x11#32 := by decide
theorem test_lw_misaligned : regAfter (ready 0x00502103#32 0#32 [] [(1, 0x123#32)]) 2 = some 0x123#32 := by decide
theorem test_sw_negativeOffset :
    wordAfter (ready 0xFE312E23#32 0#32 [(2, 0x10#32), (3, 0x55#32)] []) 3 = some 0x55#32 := by decide
theorem test_sw_misaligned : wordAfter (ready 0x001023A3#32 0#32 [(1, 0x123#32)] []) 1 = some 0x123#32 := by decide

/-- `op x1, x2, -8` at 0x100 on two operand values: the next pc. -/
def br (w a b : Word) : Option Word := pcAfter (ready w 0x100#32 [(1, a), (2, b)] [])

theorem test_beq_taken : br 0xFE208CE3#32 0x00000005#32 0x00000005#32 = some 0x000000F8#32 := by decide
theorem test_beq_notTaken : br 0xFE208CE3#32 0x00000005#32 0x00000006#32 = some 0x00000104#32 := by decide
theorem test_bne_taken : br 0xFE209CE3#32 0x00000005#32 0x00000006#32 = some 0x000000F8#32 := by decide
theorem test_bne_notTaken : br 0xFE209CE3#32 0xFFFFFFFF#32 0xFFFFFFFF#32 = some 0x00000104#32 := by decide
theorem test_blt_signed : br 0xFE20CCE3#32 0xFFFFFFFF#32 0x00000000#32 = some 0x000000F8#32 := by decide
theorem test_blt_notTaken : br 0xFE20CCE3#32 0x7FFFFFFF#32 0x80000000#32 = some 0x00000104#32 := by decide
theorem test_bge_equal : br 0xFE20DCE3#32 0x00000003#32 0x00000003#32 = some 0x000000F8#32 := by decide
theorem test_bge_signed : br 0xFE20DCE3#32 0x80000000#32 0x7FFFFFFF#32 = some 0x00000104#32 := by decide
theorem test_jal_link :
    regAfter (ready 0x010000EF#32 8#32 [] []) 1 = some 0xC#32 ∧ pcAfter (ready 0x010000EF#32 8#32 [] []) = some 0x18#32 :=
  by decide
theorem test_jal_noLink :
    pcAfter (ready 0xFF9FF06F#32 0x10#32 [] []) = some 8#32 ∧ regAfter (ready 0xFF9FF06F#32 0x10#32 [] []) 0 = some 0#32 :=
  by decide
theorem test_jalr_bit0Cleared :
    regAfter (ready 0x005100E7#32 0x20#32 [(2, 0x100#32)] []) 1 = some 0x24#32 ∧ pcAfter (ready 0x005100E7#32 0x20#32 [(2, 0x100#32)] []) = some 0x104#32 :=
  by decide
/-- `jalr x1, 0(x1)`: the old x1 is the target, bit 1 kept. -/
theorem test_jalr_sourceIsDestination :
    pcAfter (ready 0x000080E7#32 0x20#32 [(1, 0x106#32)] []) = some 0x106#32 := by decide
theorem test_lui : regAfter (ready 0xFFFFF2B7#32 0#32 [] []) 5 = some 0xFFFFF000#32 := by decide
theorem test_auipc : regAfter (ready 0x00001297#32 8#32 [] []) 5 = some 0x1008#32 := by decide
theorem test_addi_x0 : regAfter (ready 0x00728013#32 0#32 [(5, 1#32)] []) 0 = some 0#32 := by decide
theorem test_csrrw_isNoOp :
    regAfter (ready 0x300312F3#32 0#32 [(5, 9#32)] []) 5 = some 9#32 ∧ pcAfter (ready 0x300312F3#32 0#32 [(5, 9#32)] []) = some 4#32 :=
  by decide
theorem test_ecall_isNoOp : archAfter (ready 0x00000073#32 0#32 [] []) = some ⟨4#32, regs [], []⟩ := by decide

/-! ### One cycle of the pipeline: section 2.9 and the programs of section 3 -/

/-- Program P3, cycle 3: `lw x1, 0(x2)` in EX, `add x3, x1, x4` in ID: the load-use stall. -/
def loadUseState : State :=
  { ready 0x004081B3#32 12#32 [(2, 0x10#32), (4, 1#32)] [(4, 42#32)] with
    idex := ⟨8#32, 0x10#32, 0#32, 0#32, 2, 0, 1, ctrlLoad⟩ }

/-- Program P4, cycle 4: `beq x1, x2, 12` at 8 in EX, both registers still in flight. -/
def takenState : State :=
  { ready 0x00100193#32 12#32 [] [] with
    idex := ⟨8#32, 0#32, 0#32, 12#32, 1, 2, 12, ctrlBranch .beq⟩
    exmem := ⟨4#32, 5#32, 0#32, 2, ctrlIAlu .add⟩
    memwb := ⟨0#32, 5#32, 0#32, 1, ctrlIAlu .add⟩ }

/-- A store of 0x55 to byte address 0xC in MEM. -/
def storeState : State :=
  { ready 0x00000013#32 8#32 [] [] with exmem := ⟨0#32, 0xC#32, 0x55#32, 28, ctrlStore⟩ }

/-- A store to 0xE in MEM, an `addi` in EX, `lw x1, 12(x0)` in ID. -/
def storeThenLoad : State :=
  { ready 0x00C02083#32 8#32 [] [] with
    exmem := ⟨0#32, 0xE#32, 0x55#32, 14, ctrlStore⟩
    idex := ⟨4#32, 0#32, 0#32, 0#32, 0, 0, 0, ctrlIAlu .add⟩ }

/-- Vector V1, cycle 4: both EX/MEM and MEM/WB write x1, and `add x2, x1, x1` is in EX. -/
def forwardState : State :=
  { ready 0x00000013#32 12#32 [] [] with
    idex := ⟨8#32, 0#32, 0#32, 0#32, 1, 1, 2, ctrlRType .add⟩
    exmem := ⟨4#32, 2#32, 0#32, 1, ctrlIAlu .add⟩
    memwb := ⟨0#32, 1#32, 0#32, 1, ctrlIAlu .add⟩ }

/-- Both later stages name x0 as their destination, and `add x0, x0, x0` is in EX. -/
def zeroRegisterState : State :=
  { ready 0x000000B3#32 12#32 [] [] with
    idex := ⟨8#32, 0#32, 0#32, 0#32, 0, 0, 0, ctrlRType .add⟩
    exmem := ⟨4#32, 5#32, 0#32, 0, ctrlIAlu .add⟩
    memwb := ⟨0#32, 5#32, 0#32, 0, ctrlIAlu .add⟩ }

/-- A state whose fetch is at `pc` and whose instruction in MEM accesses `addr`. -/
def edgeState (pc addr : Word) (ctrl : ControlSignals) : State :=
  { State.reset with pc := pc, exmem := ⟨0#32, addr, 0#32, 0, ctrl⟩ }

theorem test_loadUse_stalls :
    loadUseState.loadUse = true ∧ (nextOf loadUseState).pc = 16#32 ∧ (nextOf loadUseState).idex = .bubble := by decide
theorem test_taken_flushes :
    (nextOf takenState).pc = 0x14#32 ∧ (nextOf takenState).ifid = .bubble ∧ (nextOf takenState).idex = .bubble :=
  by decide
theorem test_store_observed :
    storeState.writeObs = ⟨true, 0xC#32, 0x55#32⟩ ∧ readWord (nextOf storeState).dmem 3 = 0x55#32 := by decide
theorem test_forward_priority :
    (nextOf forwardState).exmem.aluResult = 4#32 ∧ storedReg (nextOf forwardState).x 1 = 1#32 := by decide
/-- Vector V2: `add x2, x1, x0` in ID reads the value WB writes in that cycle. -/
theorem test_bypass :
    (nextOf { ready 0x00008133#32 12#32 [] [] with memwb := ⟨0#32, 9#32, 0#32, 1, ctrlIAlu .add⟩ }).idex.rs1Data = 9#32 :=
  by decide
/-- Writing what an unlisted byte reads as removes the cells. -/
theorem test_zeroWord_removes_cells :
    writeWord (words [(0, 1#32), (3, 0x55#32)]) 3 0#32 = words [(0, 1#32)] := by decide
/-- `sw x1, 7(x0)` in MEM: the byte address, not the aligned one. -/
theorem test_store_misalignedObserved :
    ({ storeState with exmem := ⟨0#32, 7#32, 0x123#32, 7, ctrlStore⟩ } : State).writeObs = ⟨true, 7#32, 0x123#32⟩ :=
  by decide
/-- The capacities of the state decide: two instruction words, one data word. -/
theorem test_fault_smallCapacity :
    faultOf { edgeState 8#32 4#32 ctrlLoad with params := ⟨2, 1⟩ } = some [⟨.load, 4#32⟩, ⟨.fetch, 8#32⟩] ∧
      goes { edgeState 7#32 3#32 ctrlLoad with params := ⟨2, 1⟩ } = true := by decide
theorem test_fault_fetch : faultOf (edgeState 0x1000#32 0#32 .off) = some [⟨.fetch, 0x1000#32⟩] := by decide
theorem test_fault_load : faultOf (edgeState 0#32 0x1000#32 ctrlLoad) = some [⟨.load, 0x1000#32⟩] := by decide
theorem test_fault_storeAndFetch :
    faultOf (edgeState 0xFFFFFFFC#32 0x1000#32 ctrlStore) = some [⟨.store, 0x1000#32⟩, ⟨.fetch, 0xFFFFFFFC#32⟩] :=
  by decide
theorem test_lastWords_inRange :
    goes (edgeState 0xFFF#32 0xFFF#32 ctrlStore) = true ∧ goes (edgeState 0xFFC#32 0xFFF#32 ctrlLoad) = true :=
  by decide

/-! ### Witnesses: the encoding statements -/

theorem witness_DecodeOfEncodeIsIdentity :
    (Instr.srli 1 2 0b1011111#7 31).WellFormed ∧ (Instr.srai 1 2 0b0100000#7 31).WellFormed ∧
      (Instr.bge 31 31 0x1000#13).WellFormed ∧ (Instr.blt 31 31 0x0FFE#13).WellFormed ∧
      (Instr.jal 31 0x100000#21).WellFormed ∧ (Instr.jal 31 0x0FFFFE#21).WellFormed := by decide
theorem witness_DecodeDropsOnlyIgnoredBits :
    decodeWord 0x7F3100B3#32 = .ok (.sub 1 2 19) ∧ decodeWord 0x005150E7#32 = .ok (.jalr 1 2 5#12) := by decide
theorem witness_DecodingFollowsTheOpcodeTable :
    ∀ row ∈ opcodeTable, row.matchesWord row.pattern = true ∧ (decodeWord row.pattern).toOption.isSome = true :=
  by decide
theorem witness_UnlistedWordsDecodeToTheDefaultOutput :
    opcodeField 0x00000073#32 = 0b1110011#7 ∧ opcodeField 0x0FF0000F#32 = 0b0001111#7 ∧
    opcodeField 0x100120AF#32 = 0b0101111#7 ∧
    (opcodeField 0x003130B3#32 = opRType ∧ funct3Field 0x003130B3#32 = 0b011#3) ∧
    (∀ f3 ∈ ([0b011#3, 0b100#3, 0b110#3, 0b111#3] : List (BitVec 3)),
      opcodeField (encodeI 0#12 0 f3 0 opIAlu) = opIAlu ∧ funct3Field (encodeI 0#12 0 f3 0 opIAlu) = f3) ∧
    (∀ f3 ∈ ([0b010#3, 0b011#3, 0b110#3, 0b111#3] : List (BitVec 3)),
      opcodeField (encodeB 0#13 0 0 f3 opBranch) = opBranch ∧ funct3Field (encodeB 0#13 0 0 f3 opBranch) = f3) := by
  decide

/-! ### Witnesses: the step, reset and memory statements -/

theorem witness_StepRunsTheDecodedInstruction :
    decodeWord loadUseState.ifid.inst = .ok (.add 3 1 4) ∧ decodeWord State.reset.ifid.inst = .error (.unrecognisedOpcode 0#7) :=
  by decide
/-- A run's first state over one word. -/
def bootWith (w : Word) : State := State.boot Config.params (words [(0, w)]) []

/-- A word that decodes to an instruction, and one that decodes to none. -/
theorem witness_FetchedWordRunsInTheNextStep :
    ((bootWith 0x00500093#32).loadUse = false ∧ (bootWith 0x00500093#32).taken = false ∧
      step (bootWith 0x00500093#32) = .next (nextOf (bootWith 0x00500093#32)) ∧
      decodeWord (imemRead (bootWith 0x00500093#32).imem (bootWith 0x00500093#32).pc) = .ok (.addi 1 0 5#12)) ∧
    ((bootWith 0x00000073#32).loadUse = false ∧ (bootWith 0x00000073#32).taken = false ∧
      step (bootWith 0x00000073#32) = .next (nextOf (bootWith 0x00000073#32)) ∧
      decodeWord (imemRead (bootWith 0x00000073#32).imem (bootWith 0x00000073#32).pc) =
        .error (.unrecognisedOpcode 0x73#7)) :=
  ⟨⟨by decide, by decide, step_nextOf (by decide), by decide⟩,
    by decide, by decide, step_nextOf (by decide), by decide⟩
theorem witness_DecodeStageFillsIdEx :
    forwardState.loadUse = false ∧ forwardState.taken = false ∧ step forwardState = .next (nextOf forwardState) :=
  ⟨by decide, by decide, step_nextOf (by decide)⟩

/-- A listed word (a branch) and an unlisted one (ANDI). -/
theorem witness_ControlBitsFollowTheOpcodeClass :
    ((ready 0xFE20CCE3#32 0#32 [] []).loadUse = false ∧ (ready 0xFE20CCE3#32 0#32 [] []).taken = false ∧
      step (ready 0xFE20CCE3#32 0#32 [] []) = .next (nextOf (ready 0xFE20CCE3#32 0#32 [] [])) ∧
      decodeWord 0xFE20CCE3#32 = .ok (.blt 1 2 0x1FF8#13)) ∧
    ((ready 0xFFF17093#32 0#32 [] []).loadUse = false ∧ (ready 0xFFF17093#32 0#32 [] []).taken = false ∧
      step (ready 0xFFF17093#32 0#32 [] []) = .next (nextOf (ready 0xFFF17093#32 0#32 [] [])) ∧
      decodeWord 0xFFF17093#32 = .error (.unsupportedFunct3 opIAlu 0b111#3)) :=
  ⟨⟨by decide, by decide, step_nextOf (by decide), by decide⟩,
    by decide, by decide, step_nextOf (by decide), by decide⟩
theorem witness_PlacedWordRunsInTheVeryNextStep : (Instr.jal 1 0x0FFFFE#21).WellFormed := by decide
/-- Both sides of the equivalence, at the last word and one beyond it, for the fetch and for the data access. -/
theorem witness_CycleStopsOnlyOnAnOutOfRangeAccess :
    (∃ t, step (edgeState 0xFFF#32 0xFFF#32 ctrlStore) = .next t) ∧
    step (edgeState 0x1000#32 0#32 .off) = .fault (.outOfRange [⟨.fetch, 0x1000#32⟩]) ∧
    step (edgeState 0#32 0x1000#32 ctrlLoad) = .fault (.outOfRange [⟨.load, 0x1000#32⟩]) :=
  ⟨⟨_, step_nextOf (by decide)⟩, step_faultOf (by decide), step_faultOf (by decide)⟩
theorem witness_FaultRecordsEveryOutOfRangeAccess :
    step (edgeState 0xFFFFFFFC#32 0x1000#32 ctrlStore) =
      .fault (.outOfRange [⟨.store, 0x1000#32⟩, ⟨.fetch, 0xFFFFFFFC#32⟩]) :=
  step_faultOf (by decide)
theorem exec_nextOf {i : Instr} {s : State} (hd : decodeWord s.ifid.inst = .ok i) (h : goes s = true) :
    exec i s = .next (nextOf s) := by
  rw [← step_nextOf h, step, hd]

theorem witness_CycleFrameForEveryInstruction :
    exec (.addi 0 0 0#12) storeState = .next (nextOf storeState) ∧ storeState.exmem.ctrl.memWrite = true ∧
    exec (.addi 0 0 0#12) forwardState = .next (nextOf forwardState) ∧ forwardState.exmem.ctrl.memWrite = false :=
  ⟨exec_nextOf (by decide) (by decide), by decide, exec_nextOf (by decide) (by decide), by decide⟩
theorem witness_RegisterZeroReadsZero :
    zeroRegisterState.Inv ∧ step zeroRegisterState = .next (nextOf zeroRegisterState) ∧
    zeroRegisterState.idex.rs1 = 0#5 ∧ zeroRegisterState.idex.rs2 = 0#5 ∧ zeroRegisterState.memwb.rdAddr = 0#5 :=
  ⟨inv_of_check (by decide), step_nextOf (by decide), by decide, by decide, by decide⟩

theorem witness_WritePortWritesOneRegister :
    step forwardState = .next (nextOf forwardState) ∧ forwardState.memwb.ctrl.regWrite = true ∧
    forwardState.memwb.rdAddr ≠ 0#5 ∧ storedReg forwardState.x 0#5 = 0#32 :=
  ⟨step_nextOf (by decide), by decide, by decide, by decide⟩

/-- The bypassed register is 1; register 2 is read from the file. -/
theorem witness_ReadPortSeesTheIncomingWrite :
    step forwardState = .next (nextOf forwardState) ∧ (1#5 : RegAddr) ≠ 0#5 ∧
    forwardState.memwb.ctrl.regWrite = true ∧ forwardState.memwb.rdAddr = 1#5 ∧ forwardState.memwb.rdAddr ≠ 2#5 :=
  ⟨step_nextOf (by decide), by decide, by decide, by decide, by decide⟩

/-- The capacities of R7's table, and the largest and smallest others. -/
theorem witness_InvariantHoldsAtBoot :
    (Config.params.imemWords < 2 ^ 30 ∧ (words [(0, 0x00500093#32), (1023, 1#32)]).wf ∧ (words [(1023, 7#32)]).wf ∧
      (words [(0, 0x00500093#32), (1023, 1#32)]).within Config.params.imemWords ∧
      (words [(1023, 7#32)]).within Config.params.dmemWords) ∧
    ((⟨2 ^ 30 - 1, 0⟩ : Params).imemWords < 2 ^ 30 ∧ (words [(0xFFFF, 1#32)]).within (2 ^ 30 - 1) ∧
      (words []).within 0) := by
  decide

theorem witness_ImageIsPlacedFromWordZero :
    loadRun ⟨2, 1⟩ [0x00500093#32, 0x13#32] (words [(0, 7#32)]) =
      some (State.boot ⟨2, 1⟩ (words [(1, 0x13#32), (0, 0x00500093#32)]) (words [(0, 7#32)])) ∧
    loadRun ⟨1, 1⟩ [0x00500093#32, 0x13#32] [] = none ∧ loadRun ⟨2, 1⟩ [] (words [(1, 7#32)]) = none := by
  decide

theorem witness_FirstCycleFetchesWordZero : 0 < Config.params.imemWords ∧ 0 < (⟨1, 0⟩ : Params).imemWords := by decide

/-- A stall and a sequential fetch, the second from a PC whose low bits are not 0. -/
theorem witness_LowAddressBitsSelectNothing :
    (loadUseState.taken = false ∧ step loadUseState = .next (nextOf loadUseState)) ∧
    ((edgeState 6#32 0#32 .off).taken = false ∧
      step (edgeState 6#32 0#32 .off) = .next (nextOf (edgeState 6#32 0#32 .off))) :=
  ⟨⟨by decide, step_nextOf (by decide)⟩, by decide, step_nextOf (by decide)⟩

theorem witness_StepKeepsTheInvariant : takenState.Inv ∧ step takenState = .next (nextOf takenState) :=
  ⟨inv_of_check (by decide), step_nextOf (by decide)⟩

theorem witness_StoreReplacesExactlyItsWord :
    (storeState.dmem.wf ∧ storeState.exmem.ctrl.memWrite = true ∧ step storeState = .next (nextOf storeState)) ∧
    ((edgeState 0#32 0x1000#32 ctrlStore).dmem.wf ∧ (edgeState 0#32 0x1000#32 ctrlStore).exmem.ctrl.memWrite = true ∧
      (edgeState 0#32 0x1000#32 ctrlStore).params.dmemWords ≤
        wordIndex (edgeState 0#32 0x1000#32 ctrlStore).exmem.aluResult) :=
  ⟨⟨by decide, by decide, step_nextOf (by decide)⟩, by decide⟩

/-- One cycle that stores nothing between the store to 0xE and the load from 0xC: the same word. -/
theorem witness_LoadReturnsTheLatestStore :
    storeThenLoad.dmem.wf ∧ storeThenLoad.exmem.ctrl.memWrite = true ∧
    step storeThenLoad = .next (nextOf storeThenLoad) ∧
    RunsWithoutStoreTo (wordIndex storeThenLoad.exmem.aluResult) 1 (nextOf storeThenLoad)
      (nextOf (nextOf storeThenLoad)) ∧
    (nextOf (nextOf storeThenLoad)).exmem.ctrl.memRead = true ∧
    wordIndex (nextOf (nextOf storeThenLoad)).exmem.aluResult = wordIndex storeThenLoad.exmem.aluResult ∧
    step (nextOf (nextOf storeThenLoad)) = .next (nextOf (nextOf (nextOf storeThenLoad))) :=
  ⟨by decide, by decide, step_nextOf (by decide), ⟨by decide, _, step_nextOf (by decide), rfl⟩, by decide, by decide,
    step_nextOf (by decide)⟩

theorem witness_WriteObservationTellsTheWholeWrite :
    step storeState = .next (nextOf storeState) ∧ storeState.observe.write.wrote = true ∧
    step takenState = .next (nextOf takenState) ∧ takenState.observe.write.wrote = false :=
  ⟨step_nextOf (by decide), by decide, step_nextOf (by decide), by decide⟩

/-! ### Witnesses: hazards, forwarding, redirect -/

/-- One state for each of the three choices: x1 from EX/MEM, x1 from MEM/WB, x3 from neither. -/
theorem witness_ForwardingTakesTheNearestWriter :
    (forwardState.exmem.ctrl.regWrite = true ∧ forwardState.exmem.rdAddr = 1#5) ∧
    (¬(takenState.exmem.ctrl.regWrite = true ∧ takenState.exmem.rdAddr = 1#5) ∧
      takenState.memwb.ctrl.regWrite = true ∧ takenState.memwb.rdAddr = 1#5) ∧
    (¬(takenState.exmem.ctrl.regWrite = true ∧ takenState.exmem.rdAddr = 3#5) ∧
      ¬(takenState.memwb.ctrl.regWrite = true ∧ takenState.memwb.rdAddr = 3#5)) := by
  decide

theorem witness_LoadUseStallsExactlyOneCycle :
    loadUseState.Inv ∧ loadUseState.loadUse = true ∧ step loadUseState = .next (nextOf loadUseState) ∧
    step (nextOf loadUseState) = .next (nextOf (nextOf loadUseState)) ∧
    (nextOf (nextOf loadUseState)).idex.rs1 = loadUseState.idex.rd :=
  ⟨inv_of_check (by decide), by decide, step_nextOf (by decide), step_nextOf (by decide), by decide⟩

/-- The second clause of the forwarding of the loaded word: the consumer names the load's register as rs2. -/
theorem witness_LoadUseStallsExactlyOneCycle_rs2 :
    ({ loadUseState with ifid := ⟨12#32, 0x001201B3#32⟩, imem := words [(3, 0x001201B3#32)] } : State).Inv ∧
    ({ loadUseState with ifid := ⟨12#32, 0x001201B3#32⟩, imem := words [(3, 0x001201B3#32)] } : State).loadUse = true ∧
    rs2Field 0x001201B3#32 = loadUseState.idex.rd :=
  ⟨inv_of_check (by decide), by decide, by decide⟩

theorem witness_RedirectFlushesTheTwoYoungerInstructions :
    takenState.taken = true ∧ step takenState = .next (nextOf takenState) ∧
    step (nextOf takenState) = .next (nextOf (nextOf takenState)) :=
  ⟨by decide, step_nextOf (by decide), step_nextOf (by decide)⟩

/-- A branch that is taken, and the same state with a jump in EX. -/
theorem witness_RedirectAgreesWithTheControlBits :
    takenState.Inv ∧ (takenState.idex.ctrl.branch = true ∧ takenState.src1 = takenState.src2) ∧
    ({ takenState with idex := ⟨8#32, 0#32, 0#32, 12#32, 0, 12, 1, ctrlJal⟩ } : State).Inv ∧
    ({ takenState with idex := ⟨8#32, 0#32, 0#32, 12#32, 0, 12, 1, ctrlJal⟩ } : State).idex.ctrl.jump = true :=
  ⟨inv_of_check (by decide), by decide, inv_of_check (by decide), by decide⟩

theorem witness_StallAndRedirectNeverCoincide :
    (takenState.Inv ∧ takenState.taken = true) ∧ (loadUseState.Inv ∧ loadUseState.loadUse = true) :=
  ⟨⟨inv_of_check (by decide), by decide⟩, inv_of_check (by decide), by decide⟩

theorem witness_ForwardingNeverTakesALoadAddress :
    step loadUseState = .next (nextOf loadUseState) ∧ (nextOf loadUseState).exmem.ctrl.memRead = true :=
  ⟨step_nextOf (by decide), by decide⟩

/-- One state for each of the three cases, the last with the next PC just beyond the instruction memory. -/
theorem witness_NextPcFollowsTheRedirectAndTheStall :
    (step takenState = .next (nextOf takenState) ∧ takenState.taken = true) ∧
    (step loadUseState = .next (nextOf loadUseState) ∧ loadUseState.taken = false ∧ loadUseState.loadUse = true) ∧
    (step (edgeState 0xFFC#32 0#32 .off) = .next (nextOf (edgeState 0xFFC#32 0#32 .off)) ∧
      (edgeState 0xFFC#32 0#32 .off).taken = false ∧ (edgeState 0xFFC#32 0#32 .off).loadUse = false) :=
  ⟨⟨step_nextOf (by decide), by decide⟩, ⟨step_nextOf (by decide), by decide, by decide⟩,
    step_nextOf (by decide), by decide, by decide⟩

theorem witness_LaterStagesAdvanceInEveryCycle : step forwardState = .next (nextOf forwardState) :=
  step_nextOf (by decide)

theorem witness_DiscardedInstructionsNeverAct :
    (step (State.boot Config.params [] []) = .next (nextOf (State.boot Config.params [] [])) ∧ (State.boot Config.params [] []).idex.ctrl = .off ∧
      (State.boot Config.params [] []).exmem.ctrl = .off ∧ (State.boot Config.params [] []).memwb.ctrl = .off) ∧
    (takenState.taken = true ∧ step takenState = .next (nextOf takenState) ∧
      step (nextOf takenState) = .next (nextOf (nextOf takenState)) ∧
      step (nextOf (nextOf takenState)) = .next (nextOf (nextOf (nextOf takenState))) ∧
      step (nextOf (nextOf (nextOf takenState))) = .next (nextOf (nextOf (nextOf (nextOf takenState))))) :=
  ⟨⟨step_nextOf (by decide), by decide, by decide, by decide⟩,
    by decide, step_nextOf (by decide), step_nextOf (by decide), step_nextOf (by decide), step_nextOf (by decide)⟩

/-! ### Witnesses: every instruction form issues -/

theorem witness_issues_add :
    Issues (.add 1 2 3) (ready 0x003100B3#32 0x100#32 [(2, 0x80000000#32), (3, 33#32)] []) :=
  issues_of_check (by decide)
theorem witness_issues_sub :
    Issues (.sub 1 2 3) (ready 0x403100B3#32 0x100#32 [(2, 0x80000000#32), (3, 33#32)] []) :=
  issues_of_check (by decide)
theorem witness_issues_sll :
    Issues (.sll 1 2 3) (ready 0x003110B3#32 0x100#32 [(2, 0x80000000#32), (3, 33#32)] []) :=
  issues_of_check (by decide)
theorem witness_issues_slt :
    Issues (.slt 1 2 3) (ready 0x003120B3#32 0x100#32 [(2, 0x80000000#32), (3, 33#32)] []) :=
  issues_of_check (by decide)
theorem witness_issues_xor :
    Issues (.xor 1 2 3) (ready 0x003140B3#32 0x100#32 [(2, 0x80000000#32), (3, 33#32)] []) :=
  issues_of_check (by decide)
theorem witness_issues_srl :
    Issues (.srl 1 2 3) (ready 0x003150B3#32 0x100#32 [(2, 0x80000000#32), (3, 33#32)] []) :=
  issues_of_check (by decide)
theorem witness_issues_sra :
    Issues (.sra 1 2 3) (ready 0x403150B3#32 0x100#32 [(2, 0x80000000#32), (3, 33#32)] []) :=
  issues_of_check (by decide)
theorem witness_issues_or :
    Issues (.or 1 2 3) (ready 0x003160B3#32 0x100#32 [(2, 0x80000000#32), (3, 33#32)] []) :=
  issues_of_check (by decide)
theorem witness_issues_and :
    Issues (.and 1 2 3) (ready 0x003170B3#32 0x100#32 [(2, 0x80000000#32), (3, 33#32)] []) :=
  issues_of_check (by decide)
theorem witness_issues_addi :
    Issues (.addi 1 2 0xFFF#12) (ready 0xFFF10093#32 0x100#32 [(2, 0x80000000#32), (3, 33#32)] []) :=
  issues_of_check (by decide)
theorem witness_issues_slti :
    Issues (.slti 1 2 0xFFF#12) (ready 0xFFF12093#32 0x100#32 [(2, 0x80000000#32), (3, 33#32)] []) :=
  issues_of_check (by decide)
theorem witness_issues_slli :
    Issues (.slli 1 2 0b0100000#7 31) (ready 0x41F11093#32 0x100#32 [(2, 0x80000000#32), (3, 33#32)] []) :=
  issues_of_check (by decide)
theorem witness_issues_srli :
    Issues (.srli 1 2 0#7 4) (ready 0x00415093#32 0x100#32 [(2, 0x80000000#32), (3, 33#32)] []) :=
  issues_of_check (by decide)
theorem witness_issues_srai :
    Issues (.srai 1 2 0b1100000#7 4) (ready 0xC0415093#32 0x100#32 [(2, 0x80000000#32), (3, 33#32)] []) :=
  issues_of_check (by decide)
theorem witness_issues_lw :
    Issues (.lw 1 2 8#12) (ready 0x00812083#32 0x100#32 [(2, 0x80000000#32), (3, 33#32)] []) :=
  issues_of_check (by decide)
theorem witness_issues_sw :
    Issues (.sw 3 2 0xFFC#12) (ready 0xFE312E23#32 0x100#32 [(2, 0x80000000#32), (3, 33#32)] []) :=
  issues_of_check (by decide)
theorem witness_issues_beq :
    Issues (.beq 0 0 0x1000#13) (ready 0x80000063#32 0x100#32 [(2, 0x80000000#32), (3, 33#32)] []) :=
  issues_of_check (by decide)
theorem witness_issues_bne :
    Issues (.bne 1 2 0x1FFC#13) (ready 0xFE209EE3#32 0x100#32 [(2, 0x80000000#32), (3, 33#32)] []) :=
  issues_of_check (by decide)
theorem witness_issues_blt :
    Issues (.blt 1 2 0x1FF8#13) (ready 0xFE20CCE3#32 0x100#32 [(2, 0x80000000#32), (3, 33#32)] []) :=
  issues_of_check (by decide)
theorem witness_issues_bge :
    Issues (.bge 1 2 0x1FF8#13) (ready 0xFE20DCE3#32 0x100#32 [(2, 0x80000000#32), (3, 33#32)] []) :=
  issues_of_check (by decide)
theorem witness_issues_jal :
    Issues (.jal 29 0x100000#21) (ready 0x80000EEF#32 0x100#32 [(2, 0x80000000#32), (3, 33#32)] []) :=
  issues_of_check (by decide)
theorem witness_issues_jalr :
    Issues (.jalr 1 2 5#12) (ready 0x005100E7#32 0x100#32 [(2, 0x80000000#32), (3, 33#32)] []) :=
  issues_of_check (by decide)
theorem witness_issues_lui :
    Issues (.lui 5 0x12345#20) (ready 0x123452B7#32 0x100#32 [(2, 0x80000000#32), (3, 33#32)] []) :=
  issues_of_check (by decide)
theorem witness_issues_auipc :
    Issues (.auipc 5 1#20) (ready 0x00001297#32 0x100#32 [(2, 0x80000000#32), (3, 33#32)] []) :=
  issues_of_check (by decide)
/-- A destination x0, and a form whose address is beyond the data memory: both issue. -/
theorem witness_issues_rdZero :
    Issues (.add 0 2 3) (ready 0x00310033#32 0x100#32 [(2, 7#32), (3, 6#32)] []) := issues_of_check (by decide)
theorem witness_issues_farStore :
    Issues (.sw 3 2 0#12) (ready 0x00312023#32 0xFF8#32 [(2, 0xFFFFFFFF#32)] []) := issues_of_check (by decide)
/-- An instruction issues with others in flight: `addi` in ID, `add` in EX, both later stages writing x1. -/
theorem witness_IssueIsTheSequentialEffect : Issues (.addi 0 0 0#12) forwardState := issues_of_check (by decide)

theorem witness_UnlistedWordDoesNothing :
    (ready 0x00000073#32 0x100#32 [] []).Inv ∧
    decodeWord (ready 0x00000073#32 0x100#32 [] []).ifid.inst = .error (.unrecognisedOpcode 0x73#7) ∧
    (ready 0x00000073#32 0x100#32 [] []).ifid ≠ .bubble ∧ (ready 0x00000073#32 0x100#32 [] []).Accessible ∧
    (ready 0x00000073#32 0x100#32 [] []).loadUse = false ∧ (ready 0x00000073#32 0x100#32 [] []).taken = false :=
  ⟨inv_of_check (by decide), by decide, by decide, by decide, by decide, by decide⟩

/-- `state` with the word `w` in ID. -/
def withWord (state : State) (w : Word) : State :=
  { state with ifid := ⟨state.ifid.pc, w⟩, imem := words [(wordIndex state.ifid.pc, w)] }

/-- A stalled and a discarded instruction, and a stalled and a discarded word that is none (SLTU). -/
theorem witness_StalledOrDiscardedInstructionHasNoEffect :
    (loadUseState.Inv ∧ loadUseState.Accessible ∧ loadUseState.loadUse = true ∧
      decodeWord loadUseState.ifid.inst = .ok (.add 3 1 4)) ∧
    (takenState.Inv ∧ takenState.Accessible ∧ takenState.taken = true ∧
      decodeWord takenState.ifid.inst = .ok (.addi 3 0 1#12)) ∧
    ((withWord loadUseState 0x0040B1B3#32).Inv ∧ (withWord loadUseState 0x0040B1B3#32).Accessible ∧
      (withWord loadUseState 0x0040B1B3#32).loadUse = true ∧
      decodeWord (withWord loadUseState 0x0040B1B3#32).ifid.inst = .error (.unsupportedFunct3 opRType 0b011#3)) ∧
    ((withWord takenState 0x0040B1B3#32).Inv ∧ (withWord takenState 0x0040B1B3#32).Accessible ∧
      (withWord takenState 0x0040B1B3#32).taken = true) :=
  ⟨⟨inv_of_check (by decide), by decide, by decide, by decide⟩,
    ⟨inv_of_check (by decide), by decide, by decide, by decide⟩,
    ⟨inv_of_check (by decide), by decide, by decide, by decide⟩,
    inv_of_check (by decide), by decide, by decide⟩

/-! ### Witnesses: the pipeline and the sequential reading -/

theorem run_two {s : State} (h0 : goes s = true) (h1 : goes (nextOf s) = true) :
    runCycles 2 s = .next (nextOf (nextOf s)) := by
  rw [runCycles_succ]
  refine ⟨_, step_nextOf h0, ?_⟩
  rw [runCycles_succ]
  exact ⟨_, step_nextOf h1, rfl⟩

theorem run_three {s : State} (h0 : goes s = true) (h1 : goes (nextOf s) = true) (h2 : goes (nextOf (nextOf s)) = true) :
    runCycles 3 s = .next (nextOf (nextOf (nextOf s))) := by
  rw [runCycles_succ]
  exact ⟨_, step_nextOf h0, run_two h1 h2⟩

theorem run_four {s : State} (h0 : goes s = true) (h1 : goes (nextOf s) = true) (h2 : goes (nextOf (nextOf s)) = true)
    (h3 : goes (nextOf (nextOf (nextOf s))) = true) :
    runCycles 4 s = .next (nextOf (nextOf (nextOf (nextOf s)))) := by
  rw [runCycles_succ]
  exact ⟨_, step_nextOf h0, run_three h1 h2 h3⟩

/-- A store in EX and one in MEM, a register write in WB. -/
def inFlight : State :=
  { storeThenLoad with
    idex := ⟨4#32, 0x20#32, 7#32, 0#32, 2, 3, 0, ctrlStore⟩
    memwb := ⟨0#32, 9#32, 0#32, 1, ctrlIAlu .add⟩ }

theorem witness_OlderInstructionsCommit :
    runCycles 2 inFlight = .next (nextOf (nextOf inFlight)) ∧
    runCycles 3 inFlight = .next (nextOf (nextOf (nextOf inFlight))) :=
  ⟨run_two (by decide) (by decide), run_three (by decide) (by decide) (by decide)⟩

theorem witness_CycleRefinesTheSequentialMachine :
    inFlight.Inv ∧ step inFlight = .next (nextOf inFlight) :=
  ⟨inv_of_check (by decide), step_nextOf (by decide)⟩

/-- Capacities other than those of R7's table, small enough that the next fetch would be out of range. -/
theorem witness_RunsRefineTheSequentialMachine :
    (⟨2, 3⟩ : Params).imemWords < 2 ^ 30 ∧ (words [(0, 0x00500093#32)]).wf ∧ (words [(2, 7#32)]).wf ∧
    (words [(0, 0x00500093#32)]).within 2 ∧ (words [(2, 7#32)]).within 3 ∧
    runCycles 2 (State.boot ⟨2, 3⟩ (words [(0, 0x00500093#32)]) (words [(2, 7#32)])) =
      .next (nextOf (nextOf (State.boot ⟨2, 3⟩ (words [(0, 0x00500093#32)]) (words [(2, 7#32)])))) :=
  ⟨by decide, by decide, by decide, by decide, by decide, run_two (by decide) (by decide)⟩

/-- `addi x1, x0, 5` at 0 in ID, the zero word at 4 being fetched: the stop cycle, and the drain has its four cycles. -/
theorem witness_DrainCommitsExactlyTheProgram :
    (ready 0x00500093#32 0#32 [] []).Inv ∧ (ready 0x00500093#32 0#32 [] []).stopsHere = true ∧
    runCycles Config.drain (ready 0x00500093#32 0#32 [] []) =
      .next (nextOf (nextOf (nextOf (nextOf (ready 0x00500093#32 0#32 [] []))))) :=
  ⟨inv_of_check (by decide), by decide, run_four (by decide) (by decide) (by decide) (by decide)⟩

/-- Where a finished run stopped, its stop word, the obligations it met, and x1 at its end. -/
def endSummary : RunEnd → Option (Nat × Word × ProgramObligations × Word)
  | .ended t z ob s => some (t, z, ob, storedReg s.x 1)
  | _ => none

theorem endSummary_some {e : RunEnd} {t : Nat} {z v : Word} {ob : ProgramObligations}
    (h : endSummary e = some (t, z, ob, v)) : ∃ s, e = .ended t z ob s ∧ storedReg s.x 1 = v := by
  cases e <;> simp only [endSummary, Option.some.injEq, Prod.mk.injEq, reduceCtorEq] at h
  obtain ⟨rfl, rfl, rfl, rfl⟩ := h
  exact ⟨_, rfl, rfl⟩

/-- The one-word program `addi x1, x0, 5`: stop cycle 1, stop word at 4, x1 = 5 after the drain. -/
theorem witness_FinishedRunHasTheSequentialResult :
    Config.params.imemWords < 2 ^ 30 ∧
    ∃ e, runProgram Config.params 2 [0x00500093#32] [] = .ended 1 4#32 ⟨true, true, true⟩ e ∧ storedReg e.x 1 = 5#32 :=
  ⟨by decide, endSummary_some (by decide)⟩

/-- The same program in an instruction memory whose last word is the last drain fetch: O3 holds at its boundary; one word
less and the drain faults. -/
theorem witness_FinishedRunReportsTheProgramObligations :
    loadRun ⟨5, 0⟩ [0x00500093#32] [] = some (State.boot ⟨5, 0⟩ (words [(0, 0x00500093#32)]) []) ∧
    (∃ e, runProgram ⟨5, 0⟩ 2 [0x00500093#32] [] = .ended 1 4#32 ⟨true, true, true⟩ e ∧ storedReg e.x 1 = 5#32) ∧
    endSummary (runProgram ⟨4, 0⟩ 2 [0x00500093#32] []) = none :=
  ⟨by decide, endSummary_some (by decide), by decide⟩

/-- `jal x0, 8` at Z - 8, jumping to the stop word at 8: O1 does not hold. -/
theorem test_o1_jumpBeforeTheStopWord :
    endSummary (runProgram Config.params 4 [0x0080006F#32, 0x13#32, 0#32] []) =
      some (3, 8#32, ⟨false, true, true⟩, 0#32) := by
  decide

/-- Program PX: stop cycle 4 behind the `jalr` at Z - 4, which violates O1; x1 = 4. -/
theorem test_o1_programPX :
    endSummary (runProgram Config.params 5 [0x00C000EF#32, 0x13#32, 0#32, 0x00008067#32] []) =
      some (4, 0x10#32, ⟨false, true, true⟩, 4#32) := by
  decide

/-- `lw x1, 0(x0)` at Z - 8 stalls `add x2, x1, x0` at Z - 4: O2 does not hold. -/
theorem test_o2_stallBeforeTheStopWord :
    (endSummary (runProgram Config.params 4 [0x00002083#32, 0x00008133#32] [])).map (fun r => r.2.2.1) =
      some ⟨true, false, true⟩ := by
  decide

theorem witness_LoadImmediateAndAddressExpansions :
    (31#5 : RegAddr) ≠ 0#5 ∧
    (Pseudo.li 1 0x12345FFF#32).words = [encode (.lui 1 0x12346#20), encode (.addi 1 1 0xFFF#12)] := by
  decide

end Sys2Proof.Tests
end

section
/-! Settles O55: what a run starts with (R7, R59, R332). -/

namespace Sys2Proof.Machine

/-- An empty memory reads 0 in every word (R59). -/
@[simp] theorem readWord_nil (i : Nat) : readWord [] i = 0#32 := by
  simp only [readWord, readByte_nil]
  decide

/-- An image placed from word 0 of an empty memory reads as its words, with 0 beyond (R59). -/
theorem readWord_placeWords_nil (image : List Word) (i : Nat) :
    readWord (placeWords [] 0 image) i = image.getD i 0#32 := by
  rw [readWord_placeWords image wf_nil, readWord_nil]
  by_cases hi : i < image.length
  · simp [hi]
  · rw [if_neg (by omega), List.getD_eq_default image 0#32 (Nat.le_of_not_lt hi)]

/-- The runs that R7 does not admit. -/
theorem loadRun_eq_none {p : Params} {image : List Word} {dmem : Memory} :
    loadRun p image dmem = none ↔ p.imemWords < image.length ∨ ¬(dmem.wf ∧ dmem.within p.dmemWords) := by
  have hsome : (∃ s, loadRun p image dmem = some s) ↔
      image.length ≤ p.imemWords ∧ (dmem.wf ∧ dmem.within p.dmemWords) := by
    simp only [loadRun_eq_some, exists_and_left, exists_eq, and_true]
  rw [← Option.not_isSome_iff_eq_none, Option.isSome_iff_exists, hsome, not_and_or, Nat.not_le]

/-- Settles O55: `loadRun` answers exactly for an image that fits with admitted data, and then with the boot state whose
instruction memory is the image placed from word 0 of an empty one. -/
theorem imageIsPlacedFromWordZero : Obligations.ImageIsPlacedFromWordZero := by
  intro p image dmem
  refine ⟨loadRun_eq_none, fun s hs => ?_⟩
  obtain ⟨hfits, -, rfl⟩ := loadRun_eq_some.1 hs
  have hwithin : Memory.within [] p.imemWords := fun _ hc => absurd hc List.not_mem_nil
  exact ⟨rfl, wf_placeWords wf_nil 0 image, within_placeWords hwithin (by omega), readWord_placeWords_nil image⟩

end Sys2Proof.Machine
end

section
/-! Settles O17 to O21 and O24 (10_state.md): the frame of a cycle, the register file's ports and x0, the reset state, and
the invariant that every step keeps. -/

namespace Sys2Proof.Machine

/-! ### The register file across a cycle (R22 to R24) -/

/-- A stored register after the cycle: only the register that WB names, x0 excepted, takes the write-back value (R24). -/
theorem storedReg_nextRegs (s : State) (r : RegAddr) : storedReg s.nextRegs r =
    if s.memwb.ctrl.regWrite = true ∧ s.memwb.rdAddr ≠ 0#5 ∧ r = s.memwb.rdAddr then s.wbData else storedReg s.x r :=
  storedReg_writeReg _ _ _ _ _

/-- No cycle changes the stored X[0] (R24). -/
theorem storedReg_nextRegs_x0 (s : State) : storedReg s.nextRegs 0#5 = storedReg s.x 0#5 := by
  rw [storedReg_nextRegs, if_neg]
  rintro ⟨-, hrd, h0⟩
  exact hrd h0.symm

/-- A write to x0 is discarded (R22). -/
theorem nextRegs_of_rd_x0 {s : State} (h : s.memwb.rdAddr = 0#5) : s.nextRegs = s.x := by
  rw [State.nextRegs, h, writeReg_x0]

@[simp] theorem idRead_x0 (s : State) : s.idRead 0#5 = 0#32 := readPort_x0 _ _ _ _

theorem idRead_of_x0 (s : State) {a : RegAddr} (h : a = 0#5) : s.idRead a = 0#32 := h ▸ idRead_x0 s

/-- Nothing is ever forwarded to an operand named x0 (R258). -/
@[simp] theorem forward_x0 (s : State) (v : Word) : s.forward 0#5 v = v := by simp [forward_eq]

/-! ### The data memory across a cycle (R54) -/

theorem nextDmem_of_noStore {s : State} (h : s.exmem.ctrl.memWrite = false) : s.nextDmem = s.dmem := by
  simp [State.nextDmem, h]

theorem nextDmem_of_store {s : State} (h : s.exmem.ctrl.memWrite = true) :
    s.nextDmem = memWrite s.dmem s.exmem.aluResult s.exmem.rs2Data := by
  simp [State.nextDmem, h]

/-- No cycle changes a byte outside the word that the instruction in MEM addresses. -/
theorem readByte_nextDmem_outside (s : State) {k : Nat}
    (hk : k < 4 * wordIndex s.exmem.aluResult ∨ 4 * wordIndex s.exmem.aluResult + 4 ≤ k) :
    readByte s.nextDmem k = readByte s.dmem k := by
  cases hw : s.exmem.ctrl.memWrite with
  | false => rw [nextDmem_of_noStore hw]
  | true => rw [nextDmem_of_store hw, memWrite, readByte_writeWord_outside _ _ hk]

theorem wf_nextDmem {s : State} (h : s.dmem.wf) : s.nextDmem.wf := by
  cases hw : s.exmem.ctrl.memWrite with
  | false => rwa [nextDmem_of_noStore hw]
  | true =>
    rw [nextDmem_of_store hw]
    exact wf_memWrite h _ _

/-- A cycle without an out-of-range access keeps the data memory inside its capacity. -/
theorem within_nextDmem {s : State} (h : s.dmem.within s.params.dmemWords) (ha : s.Accessible) :
    s.nextDmem.within s.params.dmemWords := by
  cases hw : s.exmem.ctrl.memWrite with
  | false => rwa [nextDmem_of_noStore hw]
  | true =>
    rw [nextDmem_of_store hw]
    exact within_memWrite h (((accessible_iff s).1 ha).2 (.inr hw)) _

/-! ### The invariant, field by field -/

/-- The bundle of every instruction is one of the decoder's (R91). -/
theorem idOutOf_ctrl_mem (i : Instr) : (idOutOf i).ctrl ∈ decoderBundles := by
  cases i <;> simp [idOutOf, idOutR, idOutI, idOutShift, idOutS, idOutB, idOutU, idOutJ, decoderBundles]

/-- The bundle that ID hands on is one of the decoder's, whatever word is in ID (R89, R91). -/
theorem stepIdOut_ctrl_mem (w : Word) : (stepIdOut w).ctrl ∈ decoderBundles := by
  unfold stepIdOut
  split
  · exact idOutOf_ctrl_mem _
  · exact List.mem_cons_self

/-- ID/EX is never held (R253): what its bubble and its input from ID have, it has after the cycle. -/
theorem commit_idex_of {P : IdEx → Prop} {s : State} {d : IdOut} (hb : P .bubble) (hi : P (s.idexIn d)) :
    P (s.commit d).idex := by
  rw [commit_idex]
  cases s.taken || s.loadUseOn d.rs1 d.rs2 with
  | true => exact hb
  | false => exact hi

/-- What IF/ID holds after a cycle: its bubble after a redirect, the held word after a stall, else the word just fetched;
PC moves with it (R254, R257, R264). -/
theorem commit_ifid_fetched {s : State} (d : IdOut) (hs : s.Inv) (ha : s.Accessible) :
    (s.commit d).ifid = IfId.bubble ∨
      (wordIndex (s.commit d).ifid.pc < s.params.imemWords ∧
        (s.commit d).ifid.inst = imemRead s.imem (s.commit d).ifid.pc ∧
        (s.commit d).pc = (s.commit d).ifid.pc + 4#32) := by
  rw [commit_ifid, commit_pc, State.nextPc]
  cases s.taken with
  | true => exact .inl rfl
  | false =>
    cases s.loadUseOn d.rs1 d.rs2 with
    | true => exact hs.ifid_fetched
    | false => exact .inr ⟨((accessible_iff s).1 ha).1, rfl, rfl⟩

/-- The commit of a cycle keeps the invariant, whatever the decoder gives, as long as its bundle is one of its own. -/
theorem commit_keeps_inv {s : State} {d : IdOut} (hs : s.Inv) (ha : s.Accessible) (hd : d.ctrl ∈ decoderBundles) :
    (s.commit d).Inv where
  imem_capacity := hs.imem_capacity
  imem_wf := hs.imem_wf
  dmem_wf := wf_nextDmem hs.dmem_wf
  imem_within := hs.imem_within
  dmem_within := within_nextDmem hs.dmem_within ha
  x0_zero := (storedReg_nextRegs_x0 s).trans hs.x0_zero
  idex_rs1_x0 := commit_idex_of (P := fun l => l.rs1 = 0#5 → l.rs1Data = 0#32) (fun _ => rfl) (idRead_of_x0 s)
  idex_rs2_x0 := commit_idex_of (P := fun l => l.rs2 = 0#5 → l.rs2Data = 0#32) (fun _ => rfl) (idRead_of_x0 s)
  idex_ctrl := commit_idex_of (P := fun l => l.ctrl ∈ decoderBundles) List.mem_cons_self hd
  exmem_ctrl := hs.idex_ctrl
  memwb_ctrl := hs.exmem_ctrl
  ifid_fetched := commit_ifid_fetched d hs ha

/-- Settles O24: a step is the commit of a cycle with one of the decoder's bundles, and that keeps the invariant. -/
theorem stepKeepsTheInvariant : Obligations.StepKeepsTheInvariant := by
  intro s t hs hstep
  obtain ⟨ha, rfl⟩ := (step_next_iff s t).1 hstep
  exact commit_keeps_inv hs ha (stepIdOut_ctrl_mem _)

/-! ### The frame, the ports of the register file, and reset -/

/-- Settles O17: the cycle of any instruction is a commit, which writes at most WB's register and MEM's word. -/
theorem cycleFrameForEveryInstruction : Obligations.CycleFrameForEveryInstruction := by
  intro i s t hexec
  rw [exec_eq_cycle] at hexec
  obtain ⟨-, rfl⟩ := (cycle_next_iff _ s t).1 hexec
  refine ⟨rfl, rfl, fun r hr => ?_, fun hw k => ?_, fun k hk => ?_⟩
  · rw [commit_x, storedReg_nextRegs, if_neg]
    rintro ⟨hen, -, hrd⟩
    exact hr ⟨hen, hrd⟩
  · rw [commit_dmem, nextDmem_of_noStore hw]
  · rw [commit_dmem, readByte_nextDmem_outside s hk]

/-- Settles O18: nothing is forwarded to x0 and the write port leaves it alone, so an operand named x0 stays the 0 that
the invariant says ID latched. -/
theorem registerZeroReadsZero : Obligations.RegisterZeroReadsZero := by
  intro s t hs hstep
  have ht : t.Inv := stepKeepsTheInvariant s t hs hstep
  obtain ⟨-, rfl⟩ := (step_next_iff s t).1 hstep
  refine ⟨idRead_x0 s, idRead_x0 _, fun h1 => ?_, fun h2 => ?_, nextRegs_of_rd_x0, ht.x0_zero⟩
  · rw [State.src1, h1, forward_x0, hs.idex_rs1_x0 h1]
  · rw [State.fwdB, h2, forward_x0, hs.idex_rs2_x0 h2]

/-- Settles O19: the three cases of what the write port does to a stored register. -/
theorem writePortWritesOneRegister : Obligations.WritePortWritesOneRegister := by
  intro s t hstep
  obtain ⟨-, rfl⟩ := (step_next_iff s t).1 hstep
  rw [commit_x]
  refine ⟨fun hen hrd => ?_, fun r hr => ?_, (storedReg_nextRegs_x0 s).trans⟩
  · rw [storedReg_nextRegs, if_pos ⟨hen, hrd, rfl⟩]
  · rw [storedReg_nextRegs, if_neg hr]

/-- Settles O20: a read in ID is a read of the register file after the cycle, and what the write port leaves there says
which of the three cases it is. -/
theorem readPortSeesTheIncomingWrite : Obligations.ReadPortSeesTheIncomingWrite := by
  intro s t hstep a
  obtain ⟨-, rfl⟩ := (step_next_iff s t).1 hstep
  refine ⟨idRead_of_x0 s, fun ha hen hrd => ?_, fun ha hno => ?_, idRead_eq s a⟩
  · subst hrd
    rw [idRead_eq, readReg, if_neg ha, storedReg_nextRegs, if_pos ⟨hen, ha, rfl⟩]
  · rw [idRead_eq, readReg, if_neg ha, storedReg_nextRegs, if_neg]
    rintro ⟨hen, -, hrd⟩
    exact hno ⟨hen, hrd.symm⟩

/-- Settles O21: the reset register file is 32 zeros, and the latches are the bubbles written out (R35). -/
theorem resetZeroesRegistersAndLatches : Obligations.ResetZeroesRegistersAndLatches := by
  refine ⟨fun r => ?_, rfl, rfl, rfl, rfl⟩
  exact Vector.getElem_replicate _

end Sys2Proof.Machine
end

section
/-! Settles O15, O16 and O26 to O29 (20_memory.md): when a cycle has a next state, what a fault lists, and what a cycle
does to the words of the data memory. -/

namespace Sys2Proof.Machine

/-! ### Out-of-range accesses (R56) -/

theorem mem_badFetch {s : State} {acc : Access} :
    acc ∈ s.badFetch ↔ acc = ⟨.fetch, s.pc⟩ ∧ s.params.imemWords ≤ wordIndex s.pc := by
  unfold State.badFetch
  by_cases h : wordIndex s.pc < s.params.imemWords
  · simp [h]
  · simp [h, Nat.le_of_not_lt h]

/-- The shape that `badLoad` and `badStore` share: one access, listed where it is made and out of range. -/
theorem mem_singleton_if {c : Bool} {i n : Nat} {acc x : Access} :
    acc ∈ (if c && !decide (i < n) then [x] else []) ↔ acc = x ∧ c = true ∧ n ≤ i := by
  cases c with
  | false => simp
  | true =>
    by_cases h : i < n
    · simp [h]
    · simp [h, Nat.le_of_not_lt h]

theorem mem_badLoad {s : State} {acc : Access} :
    acc ∈ s.badLoad ↔ acc = ⟨.load, s.exmem.aluResult⟩ ∧ s.exmem.ctrl.memRead = true ∧
      s.params.dmemWords ≤ wordIndex s.exmem.aluResult :=
  mem_singleton_if

theorem mem_badStore {s : State} {acc : Access} :
    acc ∈ s.badStore ↔ acc = ⟨.store, s.exmem.aluResult⟩ ∧ s.exmem.ctrl.memWrite = true ∧
      s.params.dmemWords ≤ wordIndex s.exmem.aluResult :=
  mem_singleton_if

/-- What a cycle lists as out of range: its fetch, its load and its store, each where it is made and beyond the capacity. -/
theorem mem_badAccesses {s : State} {acc : Access} :
    acc ∈ s.badAccesses ↔
      (acc = ⟨.fetch, s.pc⟩ ∧ s.params.imemWords ≤ wordIndex s.pc) ∨
      (acc = ⟨.load, s.exmem.aluResult⟩ ∧ s.exmem.ctrl.memRead = true ∧
        s.params.dmemWords ≤ wordIndex s.exmem.aluResult) ∨
      (acc = ⟨.store, s.exmem.aluResult⟩ ∧ s.exmem.ctrl.memWrite = true ∧
        s.params.dmemWords ≤ wordIndex s.exmem.aluResult) := by
  rw [State.badAccesses, List.append_assoc, List.mem_append, List.mem_append, mem_badLoad, mem_badStore, mem_badFetch,
    ← or_assoc, or_comm]

/-- A step faults exactly when some access of its cycle is out of range, and the fault lists them all. -/
theorem step_fault_iff (s : State) (f : Fault) : step s = .fault f ↔ ¬s.Accessible ∧ f = .outOfRange s.badAccesses := by
  rw [step_eq_cycle, cycle_fault_iff]

/-- A step has a next state exactly when every access of its cycle is in range. -/
theorem exists_step_next_iff (s : State) : (∃ t, step s = .next t) ↔ s.Accessible := by
  simp only [step_next_iff, exists_and_left, exists_eq, and_true]

/-- Settles O15: a step is a cycle, which goes on exactly when it is accessible and is never refused. -/
theorem cycleStopsOnlyOnAnOutOfRangeAccess : Obligations.CycleStopsOnlyOnAnOutOfRangeAccess := by
  intro s
  refine ⟨(exists_step_next_iff s).trans (accessible_iff s), fun r => ?_⟩
  rw [step_eq_cycle]
  exact cycle_ne_refused _ s r

/-- Settles O16: the fault carries the cycle's list of bad accesses, whose members are the three out-of-range ones. -/
theorem faultRecordsEveryOutOfRangeAccess : Obligations.FaultRecordsEveryOutOfRangeAccess := by
  intro s l hfault acc
  obtain ⟨-, hl⟩ := (step_fault_iff s _).1 hfault
  cases hl
  exact mem_badAccesses

/-! ### The words of the data memory across a cycle (R53, R54) -/

/-- A word of the data memory after the cycle: only the word that the instruction in MEM stores to takes the store data. -/
theorem readWord_nextDmem {s : State} (h : s.dmem.wf) (i : Nat) : readWord s.nextDmem i =
    if s.exmem.ctrl.memWrite = true ∧ i = wordIndex s.exmem.aluResult then s.exmem.rs2Data else readWord s.dmem i := by
  cases hw : s.exmem.ctrl.memWrite with
  | false => simp [nextDmem_of_noStore hw]
  | true =>
    rw [nextDmem_of_store hw, memWrite]
    by_cases hi : i = wordIndex s.exmem.aluResult
    · rw [if_pos ⟨rfl, hi⟩, hi, readWord_writeWord_same h]
    · rw [if_neg (hi ·.2), readWord_writeWord_other _ _ hi]

/-- A store beyond the capacity faults, and the fault lists it. -/
theorem step_store_outOfRange {s : State} (hw : s.exmem.ctrl.memWrite = true)
    (hout : s.params.dmemWords ≤ wordIndex s.exmem.aluResult) :
    ∃ l, step s = .fault (.outOfRange l) ∧ ⟨.store, s.exmem.aluResult⟩ ∈ l := by
  have hmem : ⟨.store, s.exmem.aluResult⟩ ∈ s.badAccesses := mem_badAccesses.2 (.inr (.inr ⟨rfl, hw, hout⟩))
  exact ⟨s.badAccesses, (step_fault_iff s _).2 ⟨List.ne_nil_of_mem hmem, rfl⟩, hmem⟩

/-- Settles O26: out of range the store is among the bad accesses; in range the cycle writes its word alone. -/
theorem storeReplacesExactlyItsWord : Obligations.StoreReplacesExactlyItsWord := by
  intro s hwf hw
  refine ⟨step_store_outOfRange hw, fun t hstep addr => ?_⟩
  obtain ⟨-, rfl⟩ := (step_next_iff s t).1 hstep
  rw [commit_dmem, memRead, memRead, readWord_nextDmem hwf]
  simp only [hw, true_and]

/-- Cycles that store nothing to a word leave the word as it was, however many they are. -/
theorem RunsWithoutStoreTo.readWord_eq {w k : Nat} {s t : State} (h : RunsWithoutStoreTo w k s t) (hwf : s.dmem.wf) :
    readWord t.dmem w = readWord s.dmem w := by
  induction k generalizing s with
  | zero =>
    have hst : s = t := h
    rw [hst]
  | succ k ih =>
    obtain ⟨hno, u, hstep, hrun⟩ := h
    obtain ⟨hword, hwfu⟩ : readWord u.dmem w = readWord s.dmem w ∧ u.dmem.wf := by
      obtain ⟨-, rfl⟩ := (step_next_iff s u).1 hstep
      rw [commit_dmem, readWord_nextDmem hwf, if_neg fun hs => hno ⟨hs.1, hs.2.symm⟩]
      exact ⟨rfl, wf_nextDmem hwf⟩
    exact (ih hrun hwfu).trans hword

/-- Settles O27: the store's cycle puts the data in its word, the run keeps that word, and the load's cycle reads it. -/
theorem loadReturnsTheLatestStore : Obligations.LoadReturnsTheLatestStore := by
  intro k s t u v hwf hw hstore hrun hr hsame hload
  obtain ⟨-, rfl⟩ := (step_next_iff s t).1 hstore
  obtain ⟨-, rfl⟩ := (step_next_iff u v).1 hload
  calc u.memData
      = readWord u.dmem (wordIndex s.exmem.aluResult) := by rw [State.memData, if_pos hr, memRead, hsame]
    _ = readWord s.nextDmem (wordIndex s.exmem.aluResult) := hrun.readWord_eq (wf_nextDmem hwf)
    _ = s.exmem.rs2Data := by rw [readWord_nextDmem hwf, if_pos ⟨hw, rfl⟩]

/-! ### The low two address bits (R57, R28) -/

/-- The word index drops the low two address bits. -/
theorem wordIndex_clearLow (a : Word) : wordIndex (a &&& 0xFFFFFFFC#32) = wordIndex a := by
  unfold wordIndex
  congr 1
  apply BitVec.eq_of_getLsbD_eq
  intro k hk
  simp only [BitVec.getLsbD_ushiftRight, BitVec.getLsbD_and]
  interval_cases k <;> simp

/-- The next sequential address has the same low two bits. -/
theorem low2_add_four (a : Word) : (a + 4#32).extractLsb' 0 2 = a.extractLsb' 0 2 := by
  apply BitVec.eq_of_toNat_eq
  simp only [BitVec.extractLsb'_toNat, BitVec.toNat_add, BitVec.toNat_ofNat]
  omega

/-- Settles O28: the accesses use the word index alone, and without a redirect PC is held or moves on by 4. -/
theorem lowAddressBitsSelectNothing : Obligations.LowAddressBitsSelectNothing := by
  refine ⟨fun m a v => ?_, fun s t ht hstep => ?_⟩
  · simp only [imemRead, memRead, memWrite, wordIndex_clearLow, and_self]
  · obtain ⟨-, rfl⟩ := (step_next_iff s t).1 hstep
    rw [commit_pc, loadUseOn_stepIdOut, State.nextPc, ht]
    cases s.loadUse with
    | true => rfl
    | false => exact low2_add_four s.pc

/-! ### The write observation (R55) -/

theorem writeObs_of_store {s : State} (h : s.exmem.ctrl.memWrite = true) :
    s.observe.write = ⟨true, s.exmem.aluResult, s.exmem.rs2Data⟩ := if_pos h

theorem writeObs_of_noStore {s : State} (h : s.exmem.ctrl.memWrite = false) :
    s.observe.write = ⟨false, 0#32, 0#32⟩ := if_neg (by simp [h])

/-- Settles O29: in a cycle that stores, the observation is the store the commit makes; in any other, it is all 0. -/
theorem writeObservationTellsTheWholeWrite : Obligations.WriteObservationTellsTheWholeWrite := by
  intro s t hstep
  obtain ⟨-, rfl⟩ := (step_next_iff s t).1 hstep
  cases hw : s.exmem.ctrl.memWrite with
  | true => simp [writeObs_of_store hw, nextDmem_of_store hw]
  | false => simp [writeObs_of_noStore hw, nextDmem_of_noStore hw]

end Sys2Proof.Machine
end

section
/-! Settles O1, O2, O5 and O6 (30_encoding.md): the decoder by opcode, the round trip between words and instructions, and
the ranges of the immediates. -/

namespace Sys2Proof

/-! ### The decoder, one equation per opcode (R90) -/

/-- The nine opcodes of R90. -/
def listedOpcodes : List (BitVec 7) :=
  [opRType, opIAlu, opLoad, opStore, opBranch, opJal, opJalr, opLui, opAuipc]

/-- The opcodes as numerals, by which they are told apart (R90). -/
theorem opcodeValues :
    opLoad = 0b0000011#7 ∧ opIAlu = 0b0010011#7 ∧ opAuipc = 0b0010111#7 ∧ opStore = 0b0100011#7 ∧
      opRType = 0b0110011#7 ∧ opLui = 0b0110111#7 ∧ opBranch = 0b1100011#7 ∧ opJalr = 0b1100111#7 ∧
      opJal = 0b1101111#7 :=
  ⟨rfl, rfl, rfl, rfl, rfl, rfl, rfl, rfl, rfl⟩

/-- An opcode is one of the nine or unlisted: the case split of every proof about the whole decoder. -/
theorem opcode_cases (op : BitVec 7) :
    op = opRType ∨ op = opIAlu ∨ op = opLoad ∨ op = opStore ∨ op = opBranch ∨ op = opJal ∨ op = opJalr ∨ op = opLui ∨
      op = opAuipc ∨ op ∉ listedOpcodes := by
  by_cases h : op ∈ listedOpcodes
  · simp only [listedOpcodes, List.mem_cons, List.not_mem_nil, or_false] at h
    tauto
  · simp [h]

section
variable {w : Word}

theorem decodeWord_of_opRType (h : opcodeField w = opRType) : decodeWord w = decodeRType w := by
  simp [decodeWord, h]

theorem decodeWord_of_opIAlu (h : opcodeField w = opIAlu) : decodeWord w = decodeIAlu w := by
  simp [decodeWord, h, opcodeValues]

theorem decodeWord_of_opLoad (h : opcodeField w = opLoad) :
    decodeWord w = .ok (.lw (rdField w) (rs1Field w) (immIField w)) := by
  simp [decodeWord, h, opcodeValues]

theorem decodeWord_of_opStore (h : opcodeField w = opStore) :
    decodeWord w = .ok (.sw (rs2Field w) (rs1Field w) (immSField w)) := by
  simp [decodeWord, h, opcodeValues]

theorem decodeWord_of_opBranch (h : opcodeField w = opBranch) : decodeWord w = decodeBranch w := by
  simp [decodeWord, h, opcodeValues]

theorem decodeWord_of_opJal (h : opcodeField w = opJal) : decodeWord w = .ok (.jal (rdField w) (immJField w)) := by
  simp [decodeWord, h, opcodeValues]

theorem decodeWord_of_opJalr (h : opcodeField w = opJalr) :
    decodeWord w = .ok (.jalr (rdField w) (rs1Field w) (immIField w)) := by
  simp [decodeWord, h, opcodeValues]

theorem decodeWord_of_opLui (h : opcodeField w = opLui) : decodeWord w = .ok (.lui (rdField w) (immUField w)) := by
  simp [decodeWord, h, opcodeValues]

theorem decodeWord_of_opAuipc (h : opcodeField w = opAuipc) :
    decodeWord w = .ok (.auipc (rdField w) (immUField w)) := by
  simp [decodeWord, h, opcodeValues]

theorem decodeWord_of_unlisted (h : opcodeField w ∉ listedOpcodes) :
    decodeWord w = .error (.unrecognisedOpcode (opcodeField w)) := by
  simp only [listedOpcodes, List.mem_cons, List.not_mem_nil, or_false, not_or] at h
  simp [decodeWord, h]

end

/-! ### From an instruction to its word and back -/

/-- Settles O1: the encoded word has the opcode of its class, and the fields that the class's equation reads are the
operands; well-formedness gives bit 0 of an offset and bit 30 of a right shift. -/
theorem decodeOfEncodeIsIdentity : Obligations.DecodeOfEncodeIsIdentity := by
  intro i hi
  cases i
  case add | sub | sll | slt | xor | srl | sra | or | and => simp [encode, decodeWord_of_opRType, decodeRType]
  case addi | slti | slli => simp [encode, decodeWord_of_opIAlu, decodeIAlu]
  case srli funct7 _ | srai funct7 _ =>
    simp only [Instr.illFormed, Instr.WellFormed, ite_eq_right_iff, ite_eq_left_iff, reduceCtorEq, imp_false] at hi
    simp [encode, decodeWord_of_opIAlu, decodeIAlu, hi, -BitVec.getLsbD_eq_getElem]
  case lw => simp [encode, decodeWord_of_opLoad]
  case sw => simp [encode, decodeWord_of_opStore]
  case beq offset | bne offset | blt offset | bge offset =>
    have heven : offset.getLsbD 0 = false := by simpa [Instr.WellFormed, Instr.illFormed] using hi
    simp [encode, decodeWord_of_opBranch, decodeBranch, immBField_encodeB, heven, -BitVec.getLsbD_eq_getElem]
  case jal offset =>
    have heven : offset.getLsbD 0 = false := by simpa [Instr.WellFormed, Instr.illFormed] using hi
    simp [encode, decodeWord_of_opJal, immJField_encodeJ, heven, -BitVec.getLsbD_eq_getElem]
  case jalr => simp [encode, decodeWord_of_opJalr]
  case lui => simp [encode, decodeWord_of_opLui]
  case auipc => simp [encode, decodeWord_of_opAuipc]

/-- Settles O6: the equations of LOAD, STORE and JALR do not mention funct3. -/
theorem loadStoreJalrIgnoreFunct3 : Obligations.LoadStoreJalrIgnoreFunct3 := by
  intro imm rs2 rs1 rd f3
  simp [decodeWord_of_opLoad, decodeWord_of_opStore, decodeWord_of_opJalr]

/-! ### A word agrees with the layout of its fields on the examined bits (R82, R93 to R95) -/

section
variable {w : Word} {f3 : BitVec 3} {op : BitVec 7}

theorem encodeR_fields (hop : opcodeField w = op) (hf : funct3Field w = f3) :
    encodeR (funct7Field w) (rs2Field w) (rs1Field w) f3 (rdField w) op = w := by
  subst hop hf
  apply BitVec.eq_of_getLsbD_eq
  intro k hk
  simp only [encodeR, funct7Field, rs2Field, rs1Field, funct3Field, rdField, opcodeField, BitVec.getLsbD_append,
    BitVec.getLsbD_extractLsb']
  interval_cases k <;> simp

theorem encodeI_fields (hop : opcodeField w = op) (hf : funct3Field w = f3) :
    encodeI (immIField w) (rs1Field w) f3 (rdField w) op = w := by
  subst hop hf
  apply BitVec.eq_of_getLsbD_eq
  intro k hk
  simp only [encodeI, immIField, rs1Field, funct3Field, rdField, opcodeField, BitVec.getLsbD_append,
    BitVec.getLsbD_extractLsb']
  interval_cases k <;> simp

theorem encodeB_fields (hop : opcodeField w = op) (hf : funct3Field w = f3) :
    encodeB (immBField w) (rs2Field w) (rs1Field w) f3 op = w := by
  subst hop hf
  apply BitVec.eq_of_getLsbD_eq
  intro k hk
  simp only [encodeB, immBField, rs2Field, rs1Field, funct3Field, opcodeField, BitVec.getLsbD_append,
    BitVec.getLsbD_extractLsb']
  interval_cases k <;> simp

theorem encodeU_fields (hop : opcodeField w = op) : encodeU (immUField w) (rdField w) op = w := by
  subst hop
  apply BitVec.eq_of_getLsbD_eq
  intro k hk
  simp only [encodeU, immUField, rdField, opcodeField, BitVec.getLsbD_append, BitVec.getLsbD_extractLsb']
  interval_cases k <;> simp

theorem encodeJ_fields (hop : opcodeField w = op) : encodeJ (immJField w) (rdField w) op = w := by
  subst hop
  apply BitVec.eq_of_getLsbD_eq
  intro k hk
  simp only [encodeJ, immJField, rdField, opcodeField, BitVec.getLsbD_append, BitVec.getLsbD_extractLsb']
  interval_cases k <;> simp

/-- The mask of the R-type instructions that do not examine funct7 (R94). -/
theorem encodeR_agrees (hop : opcodeField w = op) (hf : funct3Field w = f3) (f7 : BitVec 7) :
    encodeR f7 (rs2Field w) (rs1Field w) f3 (rdField w) op &&& 0x01FFFFFF#32 = w &&& 0x01FFFFFF#32 := by
  conv_rhs => rw [← encodeR_fields hop hf]
  apply BitVec.eq_of_getLsbD_eq
  intro k hk
  simp only [encodeR, BitVec.getLsbD_and, BitVec.getLsbD_append]
  interval_cases k <;> simp

/-- The mask of ADD, SUB, SRL and SRA, which of funct7 examine bit 30 of the word (R94). -/
theorem encodeR_agrees_bit30 (hop : opcodeField w = op) (hf : funct3Field w = f3) {f7 : BitVec 7}
    (hb : f7.getLsbD 5 = bit30 w) :
    encodeR f7 (rs2Field w) (rs1Field w) f3 (rdField w) op &&& 0x41FFFFFF#32 = w &&& 0x41FFFFFF#32 := by
  rw [← funct7Field_bit30] at hb
  conv_rhs => rw [← encodeR_fields hop hf]
  apply BitVec.eq_of_getLsbD_eq
  intro k hk
  simp only [encodeR, BitVec.getLsbD_and, BitVec.getLsbD_append]
  interval_cases k <;> simp [hb, -BitVec.getLsbD_eq_getElem]

/-- The mask of LW and JALR, which do not examine funct3 (R93). -/
theorem encodeI_agrees (hop : opcodeField w = op) (f3 : BitVec 3) :
    encodeI (immIField w) (rs1Field w) f3 (rdField w) op &&& 0xFFFF8FFF#32 = w &&& 0xFFFF8FFF#32 := by
  conv_rhs => rw [← encodeI_fields hop rfl]
  apply BitVec.eq_of_getLsbD_eq
  intro k hk
  simp only [encodeI, BitVec.getLsbD_and, BitVec.getLsbD_append]
  interval_cases k <;> simp

/-- The mask of SW, which does not examine funct3 (R93). -/
theorem encodeS_agrees (hop : opcodeField w = op) (f3 : BitVec 3) :
    encodeS (immSField w) (rs2Field w) (rs1Field w) f3 op &&& 0xFFFF8FFF#32 = w &&& 0xFFFF8FFF#32 := by
  subst hop
  apply BitVec.eq_of_getLsbD_eq
  intro k hk
  simp only [encodeS, immSField, rs2Field, rs1Field, opcodeField, BitVec.getLsbD_and, BitVec.getLsbD_append,
    BitVec.getLsbD_extractLsb']
  interval_cases k <;> simp

/-! ### From a word to its instruction and back -/

variable {i : Instr}

/-- Of an R-type word bit 30 is examined for the two funct3 values that it splits, and the rest of funct7 never (R94). -/
theorem decodeRType_agrees (hop : opcodeField w = opRType) (h : decodeRType w = .ok i) :
    i.WellFormed ∧ encode i &&& examinedBits i = w &&& examinedBits i := by
  simp only [decodeRType] at h
  split_ifs at h with hf hb hf hf hf hf hb hf hf <;> cases h
  · exact ⟨rfl, encodeR_agrees_bit30 hop hf (by simp [hb])⟩
  · exact ⟨rfl, encodeR_agrees_bit30 hop hf (by simp [hb])⟩
  · exact ⟨rfl, encodeR_agrees hop hf _⟩
  · exact ⟨rfl, encodeR_agrees hop hf _⟩
  · exact ⟨rfl, encodeR_agrees hop hf _⟩
  · exact ⟨rfl, encodeR_agrees_bit30 hop hf (by simp [hb])⟩
  · exact ⟨rfl, encodeR_agrees_bit30 hop hf (by simp [hb])⟩
  · exact ⟨rfl, encodeR_agrees hop hf _⟩
  · exact ⟨rfl, encodeR_agrees hop hf _⟩

/-- Every bit of an I-ALU word is examined (R95). -/
theorem encode_of_decodeIAlu (hop : opcodeField w = opIAlu) (h : decodeIAlu w = .ok i) :
    i.WellFormed ∧ encode i = w := by
  simp only [decodeIAlu] at h
  split_ifs at h with hf hf hf hf hb <;> cases h
  · exact ⟨rfl, encodeI_fields hop hf⟩
  · exact ⟨rfl, encodeR_fields hop hf⟩
  · exact ⟨rfl, encodeI_fields hop hf⟩
  · exact ⟨if_pos ((funct7Field_bit30 w).trans hb), encodeR_fields hop hf⟩
  · exact ⟨if_neg (by rw [funct7Field_bit30]; exact hb), encodeR_fields hop hf⟩

/-- Every bit of a branch word is examined, and the offset has bit 0 clear (R85, R96). -/
theorem encode_of_decodeBranch (hop : opcodeField w = opBranch) (h : decodeBranch w = .ok i) :
    i.WellFormed ∧ encode i = w := by
  have hwf : (if (immBField w).getLsbD 0 then some IllFormed.oddOffset else none) = none :=
    if_neg (Bool.eq_false_iff.1 (immBField_even w))
  simp only [decodeBranch] at h
  split_ifs at h with hf hf hf hf <;> cases h <;> exact ⟨hwf, encodeB_fields hop hf⟩

end

/-- Settles O2, by opcode: in each class the fields that were decoded, laid out again, agree with the word where its row
examines it. -/
theorem decodeDropsOnlyIgnoredBits : Obligations.DecodeDropsOnlyIgnoredBits := by
  intro w i h
  have hall : i.WellFormed ∧ encode i = w → i.WellFormed ∧ encode i &&& examinedBits i = w &&& examinedBits i :=
    And.imp_right fun he => by rw [he]
  obtain hop | hop | hop | hop | hop | hop | hop | hop | hop | hop := opcode_cases (opcodeField w)
  · exact decodeRType_agrees hop ((decodeWord_of_opRType hop).symm.trans h)
  · exact hall (encode_of_decodeIAlu hop ((decodeWord_of_opIAlu hop).symm.trans h))
  · cases (decodeWord_of_opLoad hop).symm.trans h
    exact ⟨rfl, encodeI_agrees hop _⟩
  · cases (decodeWord_of_opStore hop).symm.trans h
    exact ⟨rfl, encodeS_agrees hop _⟩
  · exact hall (encode_of_decodeBranch hop ((decodeWord_of_opBranch hop).symm.trans h))
  · cases (decodeWord_of_opJal hop).symm.trans h
    exact hall ⟨if_neg (Bool.eq_false_iff.1 (immJField_even w)), encodeJ_fields hop⟩
  · cases (decodeWord_of_opJalr hop).symm.trans h
    exact ⟨rfl, encodeI_agrees hop _⟩
  · cases (decodeWord_of_opLui hop).symm.trans h
    exact hall ⟨rfl, encodeU_fields hop⟩
  · cases (decodeWord_of_opAuipc hop).symm.trans h
    exact hall ⟨rfl, encodeU_fields hop⟩
  · cases (decodeWord_of_unlisted hop).symm.trans h

/-! ### The immediates (R83 to R87) -/

/-- An offset whose bit 0 is clear is even, as a signed number too (R85, R87). -/
theorem toInt_emod_two_of_even {n : Nat} {v : BitVec (n + 1)} (h : v.getLsbD 0 = false) : v.toInt % 2 = 0 := by
  have hnat : v.toNat % 2 = 0 := by simpa [BitVec.getLsbD, Nat.testBit_zero] using h
  rw [BitVec.toInt_eq_toNat_cond]
  have hpow : 2 ^ (n + 1) = 2 * 2 ^ n := Nat.pow_succ'
  split <;> omega

@[simp] theorem toInt_sext12 (v : BitVec 12) : (sext12 v).toInt = v.toInt := BitVec.toInt_signExtend_of_le (by decide)
@[simp] theorem toInt_sext13 (v : BitVec 13) : (sext13 v).toInt = v.toInt := BitVec.toInt_signExtend_of_le (by decide)
@[simp] theorem toInt_sext21 (v : BitVec 21) : (sext21 v).toInt = v.toInt := BitVec.toInt_signExtend_of_le (by decide)

/-- The range of a signed field, its two bounds in the form R83 to R87 give them. -/
theorem toInt_range {n : Nat} (v : BitVec (n + 1)) : -2 ^ n ≤ v.toInt ∧ v.toInt ≤ 2 ^ n - 1 := by
  have hl : -2 ^ n ≤ v.toInt := v.le_toInt
  have hu : v.toInt < 2 ^ n := v.toInt_lt
  omega

/-- Settles O5: sign extension keeps the value of a field, so its width gives the range and its fixed bit 0 the parity. -/
theorem immediateFormsAndRanges : Obligations.ImmediateFormsAndRanges := by
  intro w
  obtain ⟨hIl, hIu⟩ := toInt_range (immIField w)
  obtain ⟨hSl, hSu⟩ := toInt_range (immSField w)
  obtain ⟨hBl, hBu⟩ := toInt_range (immBField w)
  obtain ⟨hJl, hJu⟩ := toInt_range (immJField w)
  have hB := toInt_emod_two_of_even (immBField_even w)
  have hJ := toInt_emod_two_of_even (immJField_even w)
  simp only [immI, immS, immB, immJ, toInt_sext12, toInt_sext13, toInt_sext21]
  refine ⟨⟨rfl, ?_, ?_⟩, ⟨rfl, ?_, ?_⟩, ⟨rfl, ?_, ?_, ?_⟩, rfl, rfl, ?_, ?_, ?_⟩ <;> omega

end Sys2Proof
end

section
/-! Settles O8, O12 and O14 (30_encoding.md R88 to R97): the step's decoder and `decode(w)` are one function. -/

namespace Sys2Proof.Machine

/-- The eight values of funct3, for the functions that select by it (R94 to R96). -/
theorem funct3_cases (f : BitVec 3) :
    f = 0b000#3 ∨ f = 0b001#3 ∨ f = 0b010#3 ∨ f = 0b011#3 ∨ f = 0b100#3 ∨ f = 0b101#3 ∨ f = 0b110#3 ∨ f = 0b111#3 := by
  revert f
  decide

/-! ### `decode(w)`, one equation per opcode (R91, R97) -/

section
variable {w : Word}

theorem decodeClass_of_opRType (h : opcodeField w = opRType) :
    decodeClass w = (rTypeOp w).map fun op => (ctrlRType op, 0#32) := by
  simp [decodeClass, h, opcodeValues]

theorem decodeClass_of_opIAlu (h : opcodeField w = opIAlu) :
    decodeClass w = (iAluOp w).map fun op => (ctrlIAlu op, immI w) := by
  simp [decodeClass, h, opcodeValues]

theorem decodeClass_of_opLoad (h : opcodeField w = opLoad) : decodeClass w = some (ctrlLoad, immI w) := by
  simp [decodeClass, h, opcodeValues]

theorem decodeClass_of_opStore (h : opcodeField w = opStore) : decodeClass w = some (ctrlStore, immS w) := by
  simp [decodeClass, h, opcodeValues]

theorem decodeClass_of_opBranch (h : opcodeField w = opBranch) :
    decodeClass w = (branchOp w).map fun op => (ctrlBranch op, immB w) := by
  simp [decodeClass, h, opcodeValues]

theorem decodeClass_of_opJal (h : opcodeField w = opJal) : decodeClass w = some (ctrlJal, immJ w) := by
  simp [decodeClass, h, opcodeValues]

theorem decodeClass_of_opJalr (h : opcodeField w = opJalr) : decodeClass w = some (ctrlJalr, immI w) := by
  simp [decodeClass, h, opcodeValues]

theorem decodeClass_of_opLui (h : opcodeField w = opLui) : decodeClass w = some (ctrlLui, immU w) := by
  simp [decodeClass, h, opcodeValues]

theorem decodeClass_of_opAuipc (h : opcodeField w = opAuipc) : decodeClass w = some (ctrlAuipc, immU w) := by
  simp [decodeClass, h, opcodeValues]

theorem decodeClass_of_unlisted (h : opcodeField w ∉ listedOpcodes) : decodeClass w = none := by
  simp only [listedOpcodes, opcodeValues, List.mem_cons, List.not_mem_nil, or_false, not_or, ← BitVec.toNat_inj] at h
  unfold decodeClass
  split <;> simp_all

end

/-! ### The two readings of the decoder agree -/

/-- The bundle and the immediate that the step hands to the cycle for what a word decodes to; none for the default. -/
def classOf : Except Reject Instr → Option (ControlSignals × Word)
  | .ok i => some ((idOutOf i).ctrl, (idOutOf i).imm)
  | .error _ => none

/-- R94, by the value of funct3 and bit 30. -/
theorem classOf_decodeRType (w : Word) : classOf (decodeRType w) = (rTypeOp w).map fun op => (ctrlRType op, 0#32) := by
  rcases funct3_cases (funct3Field w) with hf | hf | hf | hf | hf | hf | hf | hf <;> cases hb : bit30 w <;>
    simp [rTypeOp, decodeRType, hf, hb, classOf, idOutOf, idOutR]

/-- R95, by the value of funct3 and bit 30; a shift-immediate's two fields together are the immediate. -/
theorem classOf_decodeIAlu (w : Word) : classOf (decodeIAlu w) = (iAluOp w).map fun op => (ctrlIAlu op, immI w) := by
  rcases funct3_cases (funct3Field w) with hf | hf | hf | hf | hf | hf | hf | hf <;> cases hb : bit30 w <;>
    simp [iAluOp, decodeIAlu, hf, hb, classOf, idOutOf, idOutI, idOutShift, immI]

/-- R96, by the value of funct3. -/
theorem classOf_decodeBranch (w : Word) :
    classOf (decodeBranch w) = (branchOp w).map fun op => (ctrlBranch op, immB w) := by
  rcases funct3_cases (funct3Field w) with hf | hf | hf | hf | hf | hf | hf | hf <;>
    simp [branchOp, decodeBranch, hf, classOf, idOutOf, idOutB, immB]

/-- The bundle and the immediate of a word are those of the instruction that the word decodes to. -/
theorem decodeClass_eq (w : Word) : decodeClass w = classOf (decodeWord w) := by
  obtain hop | hop | hop | hop | hop | hop | hop | hop | hop | hop := opcode_cases (opcodeField w)
  · rw [decodeClass_of_opRType hop, decodeWord_of_opRType hop, classOf_decodeRType]
  · rw [decodeClass_of_opIAlu hop, decodeWord_of_opIAlu hop, classOf_decodeIAlu]
  · rw [decodeClass_of_opLoad hop, decodeWord_of_opLoad hop]; rfl
  · rw [decodeClass_of_opStore hop, decodeWord_of_opStore hop]; rfl
  · rw [decodeClass_of_opBranch hop, decodeWord_of_opBranch hop, classOf_decodeBranch]
  · rw [decodeClass_of_opJal hop, decodeWord_of_opJal hop]; rfl
  · rw [decodeClass_of_opJalr hop, decodeWord_of_opJalr hop]; rfl
  · rw [decodeClass_of_opLui hop, decodeWord_of_opLui hop]; rfl
  · rw [decodeClass_of_opAuipc hop, decodeWord_of_opAuipc hop]; rfl
  · rw [decodeClass_of_unlisted hop, decodeWord_of_unlisted hop]; rfl

theorem decodeSignals_of_error {w : Word} {r : Reject} (h : decodeWord w = .error r) :
    decodeSignals w = idOutDefault w := by
  rw [decodeSignals, decodeClass_eq, h]
  rfl

theorem decodeSignals_of_ok {w : Word} {i : Instr} (h : decodeWord w = .ok i) : decodeSignals w = idOutOf i := by
  have hd : stepIdOut w = idOutOf i := by rw [stepIdOut, h]
  obtain ⟨hrs1, hrs2, hrd⟩ := stepIdOut_fields w
  rw [hd] at hrs1 hrs2 hrd
  rw [decodeSignals, decodeClass_eq, h, ← hrs1, ← hrs2, ← hrd]
  rfl

/-- What the step hands to the cycle is `decode(w)` (R88). -/
theorem stepIdOut_eq_decodeSignals (w : Word) : stepIdOut w = decodeSignals w := by
  cases h : decodeWord w with
  | ok i => rw [stepIdOut, h, decodeSignals_of_ok h]
  | error r => rw [stepIdOut, h, decodeSignals_of_error h]

/-- Settles O14: a step is a cycle, and what it is handed is `decode(w)`. -/
theorem stepIsTheCycleOfTheDecoderFunction : Obligations.StepIsTheCycleOfTheDecoderFunction := by
  intro s
  rw [step_eq_cycle, stepIdOut_eq_decodeSignals]

/-! ### Words that decode to no instruction (R89) -/

/-- Settles O8: an opcode outside the nine, or a funct3 that its opcode does not support, is a decoder error, and
`decode(w)` answers an error with its default output. -/
theorem unlistedWordsDecodeToTheDefaultOutput : Obligations.UnlistedWordsDecodeToTheDefaultOutput := by
  intro w hw
  obtain ⟨r, hr⟩ : ∃ r, decodeWord w = .error r := by
    simp only [List.mem_cons, List.not_mem_nil, or_false] at hw
    obtain hop | hop | hop | ⟨hop, hf⟩ | ⟨hop, hf⟩ | ⟨hop, hf⟩ := hw
    · exact ⟨_, decodeWord_of_unlisted (by rw [hop]; decide)⟩
    · exact ⟨_, decodeWord_of_unlisted (by rw [hop]; decide)⟩
    · exact ⟨_, decodeWord_of_unlisted (by rw [hop]; decide)⟩
    · simp [decodeWord_of_opRType hop, decodeRType, hf]
    · rw [decodeWord_of_opIAlu hop]
      rcases hf with hf | hf | hf | hf <;> simp [decodeIAlu, hf]
    · rw [decodeWord_of_opBranch hop]
      rcases hf with hf | hf | hf | hf <;> simp [decodeBranch, hf]
  exact ⟨fun i hi => by simp [hr] at hi, decodeSignals_of_error hr⟩

/-! ### The classes of control bits (R91, R92, R97) -/

/-- In a cycle that neither stalls nor redirects ID/EX takes the decoder's output for the word in IF/ID (R255). -/
theorem idex_of_step {s t : State} (hl : s.loadUse = false) (ht : s.taken = false) (h : step s = .next t) :
    t.idex = s.idexIn (decodeSignals s.ifid.inst) := by
  obtain ⟨-, rfl⟩ := (step_next_iff s t).1 h
  rw [commit_idex_advance s _ ht ((loadUseOn_stepIdOut s).trans hl), stepIdOut_eq_decodeSignals]

theorem decodeSignals_of_class {w : Word} {ctrl : ControlSignals} {imm : Word} (h : decodeClass w = some (ctrl, imm)) :
    (decodeSignals w).ctrl = ctrl ∧ (decodeSignals w).imm = imm := by
  simp [decodeSignals, h]

/-- A listed word whose class selects its operation by funct3 has the bundle of that class for some operation. -/
theorem decodeSignals_of_class_map {w : Word} {o : Option AluOp} {ctrl : AluOp → ControlSignals} {imm : Word}
    (hlisted : ∃ i, decodeWord w = .ok i) (h : decodeClass w = o.map fun op => (ctrl op, imm)) :
    ∃ op, (decodeSignals w).ctrl = ctrl op ∧ (decodeSignals w).imm = imm := by
  obtain ⟨i, hi⟩ := hlisted
  cases o with
  | none => simp [decodeClass_eq, hi, classOf] at h
  | some op => exact ⟨op, decodeSignals_of_class h⟩

/-- Settles O12: a listed word has the bundle and the immediate of its opcode's class; an unlisted word has the default
output, and its opcode is none of those that list every word. -/
theorem controlBitsFollowTheOpcodeClass : Obligations.ControlBitsFollowTheOpcodeClass := by
  intro s t hl ht hstep w op listed
  have hid : t.idex = s.idexIn (decodeSignals w) := idex_of_step hl ht hstep
  rw [hid, idexIn_ctrl, idexIn_imm]
  by_cases hlisted : listed
  · obtain hop | hop | hop | hop | hop | hop | hop | hop | hop | hop := opcode_cases op
    · obtain ⟨_, hc, hm⟩ := decodeSignals_of_class_map hlisted (decodeClass_of_opRType hop)
      simp [hc, hm, ctrlRType, hlisted, hop, opcodeValues]
    · obtain ⟨_, hc, hm⟩ := decodeSignals_of_class_map hlisted (decodeClass_of_opIAlu hop)
      simp [hc, hm, ctrlIAlu, hlisted, hop, opcodeValues]
    · obtain ⟨hc, hm⟩ := decodeSignals_of_class (decodeClass_of_opLoad hop)
      simp [hc, hm, ctrlLoad, hlisted, hop, opcodeValues]
    · obtain ⟨hc, hm⟩ := decodeSignals_of_class (decodeClass_of_opStore hop)
      simp [hc, hm, ctrlStore, hlisted, hop, opcodeValues]
    · obtain ⟨_, hc, hm⟩ := decodeSignals_of_class_map hlisted (decodeClass_of_opBranch hop)
      simp [hc, hm, ctrlBranch, hlisted, hop, opcodeValues]
    · obtain ⟨hc, hm⟩ := decodeSignals_of_class (decodeClass_of_opJal hop)
      simp [hc, hm, ctrlJal, hlisted, hop, opcodeValues]
    · obtain ⟨hc, hm⟩ := decodeSignals_of_class (decodeClass_of_opJalr hop)
      simp [hc, hm, ctrlJalr, hlisted, hop, opcodeValues]
    · obtain ⟨hc, hm⟩ := decodeSignals_of_class (decodeClass_of_opLui hop)
      simp [hc, hm, ctrlLui, hlisted, hop, opcodeValues]
    · obtain ⟨hc, hm⟩ := decodeSignals_of_class (decodeClass_of_opAuipc hop)
      simp [hc, hm, ctrlAuipc, hlisted, hop, opcodeValues]
    · exact absurd hlisted (by simp [listed, decodeWord_of_unlisted hop])
  · have hload : op ≠ opLoad := fun h => hlisted ⟨_, decodeWord_of_opLoad h⟩
    have hstore : op ≠ opStore := fun h => hlisted ⟨_, decodeWord_of_opStore h⟩
    have hjal : op ≠ opJal := fun h => hlisted ⟨_, decodeWord_of_opJal h⟩
    have hjalr : op ≠ opJalr := fun h => hlisted ⟨_, decodeWord_of_opJalr h⟩
    have hdef : decodeSignals w = idOutDefault w := by
      cases h : decodeWord w with
      | ok i => exact absurd ⟨i, h⟩ hlisted
      | error r => exact decodeSignals_of_error h
    simp [hdef, idOutDefault, hlisted, hload, hstore, hjal, hjalr]

end Sys2Proof.Machine
end

section
/-! Settles O54 (30_encoding.md R102): what the two words of `li` and of `la` leave. -/

namespace Sys2Proof.Machine

theorem toNat_upper20 (v : BitVec 20) : (upper20 v).toNat = v.toNat * 4096 :=
  (BitVec.toNat_append v 0x000#12).trans (by simp [Nat.shiftLeft_eq])

/-- The two halves of a 32-bit value add up to it: the rounding in `hi20` makes up for the sign of `lo12` (R102). -/
theorem upper20_hi20_add_sext12_lo12 (v : Word) : upper20 (hi20 v) + sext12 (lo12 v) = v := by
  have hhi : (upper20 (hi20 v)).toNat = (v.toNat + 2048) % 2 ^ 32 / 4096 * 4096 := by
    simp only [toNat_upper20, hi20, BitVec.extractLsb'_toNat, BitVec.toNat_add, BitVec.toNat_ofNat,
      Nat.shiftRight_eq_div_pow]
    omega
  have hlo : (sext12 (lo12 v)).toNat = v.toNat % 4096 + if 2048 ≤ v.toNat % 4096 then 2 ^ 32 - 4096 else 0 := by
    simp [sext12, lo12, BitVec.toNat_signExtend, BitVec.msb_eq_decide]
    omega
  apply BitVec.eq_of_toNat_eq
  rw [BitVec.toNat_add, hhi, hlo]
  have hv := v.isLt
  split <;> omega

/-- Everything `setReg` can do to a register as it is read. -/
theorem reg_setReg (a : Arch) (rd r : RegAddr) (v : Word) :
    (a.setReg rd v).reg r = if r = rd ∧ r ≠ 0#5 then v else a.reg r := by
  simpa [Arch.reg] using readReg_writeReg a.x true rd r v

/-- An ADDI on the register just written adds to it and changes nothing else. -/
theorem effect_addi_setReg {rd : RegAddr} (hrd : rd ≠ 0#5) (a : Arch) (u : Word) (imm : BitVec 12) :
    (effect (.addi rd rd imm) (a.setReg rd u)).reg rd = u + sext12 imm ∧
      (∀ r, r ≠ rd → (effect (.addi rd rd imm) (a.setReg rd u)).reg r = a.reg r) ∧
      (effect (.addi rd rd imm) (a.setReg rd u)).dmem = a.dmem := by
  refine ⟨?_, fun r hr => ?_, rfl⟩
  · simp [effect, reg_setReg, hrd]
  · simp [effect, reg_setReg, hr]

/-- Settles O54: LUI or AUIPC leaves the upper half in rd, over 0 or over the address, and ADDI completes it. -/
theorem loadImmediateAndAddressExpansions : Obligations.LoadImmediateAndAddressExpansions := by
  intro rd v a hrd
  have hdecode : ∀ i : Instr, i.WellFormed → decodeWord (encode i) = .ok i := decodeOfEncodeIsIdentity
  refine ⟨⟨.lui rd (hi20 v), .addi rd rd (lo12 v), rfl, hdecode _ rfl, hdecode _ rfl, ?_⟩,
    ⟨.auipc rd (hi20 v), .addi rd rd (lo12 v), rfl, hdecode _ rfl, hdecode _ rfl, ?_⟩⟩
  · obtain ⟨hreg, hframe⟩ := effect_addi_setReg hrd a (upper20 (hi20 v)) (lo12 v)
    exact ⟨hreg.trans (upper20_hi20_add_sext12_lo12 v), hframe⟩
  · obtain ⟨hreg, hframe⟩ := effect_addi_setReg hrd a (a.pc + upper20 (hi20 v)) (lo12 v)
    exact ⟨hreg.trans (by rw [BitVec.add_assoc, upper20_hi20_add_sext12_lo12]), hframe⟩

end Sys2Proof.Machine
end

section
/-! Settles O48, O39, O49 and O7 (40_integer_register.md): an issuing cycle is the instruction's "Effect" line, what the
nine R-type instructions leave, when the older instructions have committed, and the RV32M words. -/

namespace Sys2Proof.Machine

/-! ### The operands of an instruction that enters EX (R23, R256, R258, R259) -/

/-- What the instruction now in EX latched, with forwarding, is the register value that every older instruction leaves.
The one value forwarding cannot supply is a word still being loaded, and that is the load-use case. -/
theorem forward_commit_idRead {s : State} (d : IdOut) {r : RegAddr} (hbundle : s.idex.ctrl ∈ decoderBundles)
    (hload : s.idex.ctrl.memRead = true → r = s.idex.rd → r = 0#5) :
    (s.commit d).forward r (s.idRead r) = s.arch.reg r := by
  rw [forward_commit, idRead_eq, Arch.reg, arch_x, State.regsAfterEx, readReg_writeReg, State.regsAfterMem,
    readReg_writeReg, State.regsAfterWb]
  by_cases hex : s.idex.ctrl.regWrite = true ∧ r = s.idex.rd ∧ r ≠ 0#5
  · obtain ⟨-, hrd, hr⟩ := hex
    have hnot : s.idex.ctrl.memToReg = false := by
      rw [memToReg_of_bundle hbundle, Bool.eq_false_iff]
      exact fun hread => hr (hload hread hrd)
    simp [hnot]
  · rw [if_neg hex, if_neg hex]

/-- Without a load-use stall neither source of the instruction in ID is the destination of a load in EX. -/
theorem source_ne_load {s : State} {rs1 rs2 : RegAddr} (h : s.loadUseOn rs1 rs2 = false)
    (hread : s.idex.ctrl.memRead = true) :
    (rs1 = s.idex.rd → rs1 = 0#5) ∧ (rs2 = s.idex.rd → rs2 = 0#5) := by
  rw [State.loadUseOn, hread] at h
  constructor <;> rintro rfl <;> simpa using h

/-! ### The instruction in ID enters EX (R255, R264) -/

/-- The ALU outputs of a decoder output on the sequential registers and pc (R259 to R261). -/
def aluOutOf (d : IdOut) (a : Arch) : AluOut :=
  alu d.ctrl.aluOp (a.reg d.rs1) (if d.ctrl.aluSrcImmediate then d.imm else a.reg d.rs2) a.pc d.imm

/-- What a decoder output does to the sequential state: the redirect of its ALU outputs, and the register write and the
store that its bundle asks for. -/
def idOutEffect (d : IdOut) (a : Arch) : Arch where
  pc := if (aluOutOf d a).branchTaken then (aluOutOf d a).branchTarget else a.pc + 4#32
  x := writeReg a.x d.ctrl.regWrite d.rd
    (if d.ctrl.memToReg then (if d.ctrl.memRead then memRead a.dmem (aluOutOf d a).result else 0#32)
    else (aluOutOf d a).result)
  dmem := if d.ctrl.memWrite then memWrite a.dmem (aluOutOf d a).result (a.reg d.rs2) else a.dmem

/-- An address inside an instruction memory that ends below the top of the address space is not the last one (R29). -/
theorem add_four_ne_zero {a : Word} {n : Nat} (hn : n < 2 ^ 30) (ha : wordIndex a < n) : a + 4#32 ≠ 0#32 := by
  rw [wordIndex, BitVec.toNat_ushiftRight, Nat.shiftRight_eq_div_pow] at ha
  intro h
  have hsum : (a.toNat + 4) % 2 ^ 32 = 0 := by simpa using congrArg BitVec.toNat h
  omega

section
variable {s : State} {d : IdOut}

theorem nextInOrder_of_word (hword : s.ifid ≠ .bubble) (ht : s.taken = false) : s.nextInOrder = s.ifid.pc := by
  simp [State.nextInOrder, ht, hword]

/-- Where a word in ID advances and does not then redirect, the next instruction is at the address after it: that is the
address IF/ID takes, and it is not the bubble's. -/
theorem nextInOrder_commit_advance (hs : s.Inv) (hword : s.ifid ≠ .bubble) (ht : s.taken = false)
    (hl : s.loadUseOn d.rs1 d.rs2 = false) :
    (s.commit d).nextInOrder = if (s.commit d).taken then (s.commit d).target else s.ifid.pc + 4#32 := by
  obtain ⟨hin, -, hpc⟩ := hs.ifid_fetched.resolve_left hword
  have hfetched : (s.commit d).ifid = ⟨s.ifid.pc + 4#32, s.fetchWord⟩ := by
    rw [commit_ifid, ht, hl, nextLatch_take, hpc]
  have hbubble : (s.commit d).ifid ≠ .bubble := fun h =>
    add_four_ne_zero hs.imem_capacity hin (congrArg IfId.pc (hfetched.symm.trans h))
  rw [State.nextInOrder, if_neg hbubble, hfetched]

/-- The store data and second register operand of the word that advances are read from the sequential registers. -/
theorem fwdB_commit_advance (hs : s.Inv) (ht : s.taken = false) (hl : s.loadUseOn d.rs1 d.rs2 = false) :
    (s.commit d).fwdB = s.arch.reg d.rs2 := by
  rw [State.fwdB, commit_idex_advance s d ht hl]
  exact forward_commit_idRead d hs.idex_ctrl fun hread => (source_ne_load hl hread).2

theorem src1_commit_advance (hs : s.Inv) (ht : s.taken = false) (hl : s.loadUseOn d.rs1 d.rs2 = false) :
    (s.commit d).src1 = s.arch.reg d.rs1 := by
  rw [State.src1, commit_idex_advance s d ht hl]
  exact forward_commit_idRead d hs.idex_ctrl fun hread => (source_ne_load hl hread).1

/-- The ALU outputs of the next cycle are those of the decoder output on the sequential registers and pc. -/
theorem aluOut_commit_advance (hs : s.Inv) (hword : s.ifid ≠ .bubble) (ht : s.taken = false)
    (hl : s.loadUseOn d.rs1 d.rs2 = false) : (s.commit d).aluOut = aluOutOf d s.arch := by
  rw [State.aluOut, State.src2, src1_commit_advance hs ht hl, fwdB_commit_advance hs ht hl,
    commit_idex_advance s d ht hl, aluOutOf, arch_pc, nextInOrder_of_word hword ht]
  rfl

/-- A word in ID that advances takes the architectural state to what its decoder output does to it. -/
theorem arch_commit_advance (hs : s.Inv) (hword : s.ifid ≠ .bubble) (ht : s.taken = false)
    (hl : s.loadUseOn d.rs1 d.rs2 = false) : (s.commit d).arch = idOutEffect d s.arch := by
  rw [State.arch, nextInOrder_commit_advance hs hword ht hl, State.taken, State.target, State.regsAfterEx,
    regsAfterMem_commit, State.exMemData, State.dmemAfterEx, nextDmem_commit, commit_idex_advance s d ht hl,
    fwdB_commit_advance hs ht hl, aluOut_commit_advance hs hword ht hl, ← nextInOrder_of_word hword ht]
  rfl

end

/-! ### The decoder output of each instruction does its "Effect" line (R123 to R221) -/

/-- The low five bits of a shift-immediate's value are its shift amount (R143). -/
theorem shiftAmount_sext12 (funct7 : BitVec 7) (shamt : BitVec 5) :
    shiftAmount (sext12 (funct7 ++ shamt)) = shamt.toNat := by
  refine congrArg BitVec.toNat ?_
  apply BitVec.eq_of_getLsbD_eq
  intro k hk
  simp only [sext12, BitVec.getLsbD_extractLsb', BitVec.getLsbD_signExtend, BitVec.getLsbD_append]
  interval_cases k <;> simp

theorem boolWord_signedLess (u v : Word) : boolWord (signedLess u v) = if u.toInt < v.toInt then 1#32 else 0#32 := by
  simp [boolWord, signedLess]

/-- Every "Effect" line is the ALU arm and the bundle of the instruction written out; only the comparisons and the
shift-immediates say their result in other words. -/
theorem idOutEffect_idOutOf (i : Instr) (a : Arch) : idOutEffect (idOutOf i) a = effect i a := by
  cases i
  case slt rd _ _ | slti rd _ _ => exact congrArg (a.setReg rd) (boolWord_signedLess _ _)
  case slli rd rs1 funct7 shamt =>
    exact congrArg (fun n => a.setReg rd (a.reg rs1 <<< n)) (shiftAmount_sext12 funct7 shamt)
  case srli rd rs1 funct7 shamt =>
    exact congrArg (fun n => a.setReg rd (a.reg rs1 >>> n)) (shiftAmount_sext12 funct7 shamt)
  case srai rd rs1 funct7 shamt =>
    exact congrArg (fun n => a.setReg rd ((a.reg rs1).sshiftRight n)) (shiftAmount_sext12 funct7 shamt)
  all_goals rfl

/-! ### The cycle in which an instruction issues -/

section
variable {i : Instr} {s : State}

/-- The word of an instruction is not that of the IF/ID bubble, which is no row of the table (R242). -/
theorem ifid_ne_bubble_of_decode (h : decodeWord s.ifid.inst = .ok i) : s.ifid ≠ .bubble := by
  intro hbubble
  rw [hbubble, ifidBubble_inst, decodeWord_of_unlisted (by decide)] at h
  cases h

/-- The load-use condition on an instruction's own operand fields is that of the word it decodes (R81, R256). -/
theorem loadUseOn_idOutOf (h : decodeWord s.ifid.inst = .ok i) :
    s.loadUseOn (idOutOf i).rs1 (idOutOf i).rs2 = s.loadUse := by
  have hd : stepIdOut s.ifid.inst = idOutOf i := by rw [stepIdOut, h]
  rw [← hd, loadUseOn_stepIdOut]

theorem arch_of_issues (h : Issues i s) : (s.commit (idOutOf i)).arch = effect i s.arch := by
  obtain ⟨hinv, hid, -, hstall, hredirect⟩ := h
  rw [arch_commit_advance hinv (ifid_ne_bubble_of_decode hid) hredirect ((loadUseOn_idOutOf hid).trans hstall),
    idOutEffect_idOutOf]

end

/-- Settles O48: the cycle's decoder output acts on the sequential registers, and what it does is the "Effect" line. -/
theorem issueIsTheSequentialEffect : Obligations.IssueIsTheSequentialEffect := by
  intro i s h
  refine ⟨s.commit (idOutOf i), ?_, rfl, rfl, arch_of_issues h⟩
  rw [exec_eq_cycle, cycle_next_iff]
  exact ⟨h.accessible, rfl⟩

/-! ### What an instruction that only writes a register leaves (R121 to R131) -/

/-- An instruction that issues completes, with whatever holds of its "Effect" line. -/
theorem completes_of_effect {i : Instr} {s : State} {rel : Arch → Arch → Prop} (hrel : ∀ a, rel a (effect i a))
    (h : Issues i s) : Completes i s rel := by
  obtain ⟨t, hexec, himem, hparams, harch⟩ := issueIsTheSequentialEffect i s h
  exact ⟨t, hexec, himem, hparams, harch ▸ hrel s.arch⟩

theorem writesOnly_setReg (rd : RegAddr) (v : Arch → Word) (a : Arch) : WritesOnly rd v a (a.setReg rd (v a)) :=
  ⟨rfl, fun r => reg_setReg a rd r (v a), fun _ => rfl⟩

/-- An instruction whose "Effect" line is `x[rd] <- v` completes and writes that and nothing else. -/
theorem completes_writesOnly {i : Instr} {rd : RegAddr} {v : Arch → Word} {s : State}
    (heffect : ∀ a, effect i a = a.setReg rd (v a)) (h : Issues i s) : Completes i s (WritesOnly rd v) :=
  completes_of_effect (fun a => heffect a ▸ writesOnly_setReg rd v a) h

/-- A shift by the low five bits is a shift by the value modulo 32 (R125). -/
theorem low5_toNat (v : Word) : (v.extractLsb' 0 5).toNat = v.toNat % 32 := by simp

/-- Settles O39: each "Effect" line is `x[rd] <- v`; the three shifts say their amount as a value modulo 32. -/
theorem registerRegisterResults : Obligations.RegisterRegisterResults := by
  intro rd rs1 rs2 s
  have hsll : ∀ a, effect (.sll rd rs1 rs2) a = a.setReg rd (a.reg rs1 <<< ((a.reg rs2).toNat % 32)) := fun a => by
    rw [effect, low5_toNat]
  have hsrl : ∀ a, effect (.srl rd rs1 rs2) a = a.setReg rd (a.reg rs1 >>> ((a.reg rs2).toNat % 32)) := fun a => by
    rw [effect, low5_toNat]
  have hsra : ∀ a, effect (.sra rd rs1 rs2) a = a.setReg rd ((a.reg rs1).sshiftRight ((a.reg rs2).toNat % 32)) :=
    fun a => by rw [effect, low5_toNat]
  exact ⟨completes_writesOnly fun _ => rfl, completes_writesOnly fun _ => rfl, completes_writesOnly hsll,
    completes_writesOnly fun _ => rfl, completes_writesOnly fun _ => rfl, completes_writesOnly hsrl,
    completes_writesOnly hsra, completes_writesOnly fun _ => rfl, completes_writesOnly fun _ => rfl⟩

/-! ### When the older instructions have committed (R121, R267, R331) -/

/-- The second cycle's register write is that of the instruction that was in MEM. -/
theorem nextRegs_commit (s : State) (d : IdOut) : (s.commit d).nextRegs = s.regsAfterMem := rfl

/-- Settles O49: a cycle's store is that of MEM and its register write that of WB, so EX's store is made in the second
cycle and EX's register write in the third. -/
theorem olderInstructionsCommit : Obligations.OlderInstructionsCommit := by
  simp only [Obligations.OlderInstructionsCommit, runCycles_succ, runCycles_zero, step_next_iff]
  constructor
  · rintro s u ⟨t, ⟨-, rfl⟩, u, ⟨-, rfl⟩, rfl⟩
    rw [commit_dmem, nextDmem_commit, arch_dmem]
  · rintro s v ⟨t, ⟨-, rfl⟩, u, ⟨-, rfl⟩, v, ⟨-, rfl⟩, rfl⟩
    rw [commit_x, nextRegs_commit, regsAfterMem_commit, arch_x]

/-! ### The RV32M words (R132) -/

/-- Of funct7 the R-type decoder reads bit 30 of the word alone (R94). -/
theorem decodeWord_encodeR_funct7 (f7 g7 : BitVec 7) (h : f7.getLsbD 5 = g7.getLsbD 5) (rs2 rs1 : RegAddr)
    (f3 : BitVec 3) (rd : RegAddr) :
    decodeWord (encodeR f7 rs2 rs1 f3 rd opRType) = decodeWord (encodeR g7 rs2 rs1 f3 rd opRType) := by
  simp [decodeWord_of_opRType, decodeRType, h, -BitVec.getLsbD_eq_getElem]

/-- Settles O7: funct7 0000001 has bit 30 clear, as the funct7 of the base operations has. -/
theorem multiplyDivideWordsRunAsBaseOperations : Obligations.MultiplyDivideWordsRunAsBaseOperations := by
  intro rd rs1 rs2 word
  have hbase : ∀ f3, decodeWord (word f3) = decodeWord (encodeR 0b0000000#7 rs2 rs1 f3 rd opRType) :=
    fun f3 => decodeWord_encodeR_funct7 0b0000001#7 0b0000000#7 rfl rs2 rs1 f3 rd
  have hdecode : ∀ i : Instr, i.WellFormed → decodeWord (encode i) = .ok i := decodeOfEncodeIsIdentity
  simp only [hbase]
  refine ⟨hdecode (.add rd rs1 rs2) rfl, hdecode (.sll rd rs1 rs2) rfl, hdecode (.slt rd rs1 rs2) rfl, ?_,
    hdecode (.xor rd rs1 rs2) rfl, hdecode (.srl rd rs1 rs2) rfl, hdecode (.or rd rs1 rs2) rfl,
    hdecode (.and rd rs1 rs2) rfl⟩
  simp [decodeWord_of_opRType, decodeRType]

end Sys2Proof.Machine
end

section
/-! Settles O40 (41_integer_immediate.md): what the five I-ALU instructions leave. -/

namespace Sys2Proof.Machine

/-- Settles O40: each "Effect" line is `x[rd] <- v`; SLTI compares with the sign-extended immediate, whose signed value is
the immediate's own, and the shift-immediates use `shamt` and not the bits above it. -/
theorem registerImmediateResults : Obligations.RegisterImmediateResults := by
  intro rd rs1 imm funct7 shamt s
  have hslti : ∀ a, effect (.slti rd rs1 imm) a =
      a.setReg rd (if (a.reg rs1).toInt < imm.toInt then 1#32 else 0#32) := fun a => by rw [effect, toInt_sext12]
  exact ⟨completes_writesOnly fun _ => rfl, completes_writesOnly hslti, completes_writesOnly fun _ => rfl,
    completes_writesOnly fun _ => rfl, completes_writesOnly fun _ => rfl⟩

end Sys2Proof.Machine
end

section
/-! Settles O41 and O42 (42_load_store.md): what LW and SW leave. -/

namespace Sys2Proof.Machine

/-- Settles O41: the "Effect" line of LW is `x[rd] <- v` with the word it reads as `v`. -/
theorem loadWordResult : Obligations.LoadWordResult :=
  fun _ _ _ _ => completes_writesOnly fun _ => rfl

/-! ### The store of an "Effect" line (R54, R162) -/

/-- The data memory that the older instructions leave is canonical: it is the one two cycles on. -/
theorem wf_dmemAfterEx {s : State} (h : s.dmem.wf) : s.dmemAfterEx.wf := by
  rw [← nextDmem_commit s (stepIdOut s.ifid.inst)]
  exact wf_nextDmem (wf_nextDmem h)

theorem memRead_memWrite_same {m : Memory} (h : m.wf) (addr v : Word) : memRead (memWrite m addr v) addr = v :=
  readWord_writeWord_same h (wordIndex addr) v

/-- The "Effect" line of SW stores one word and changes nothing else. -/
theorem storesOnly_effect_sw (rs2 rs1 : RegAddr) (imm : BitVec 12) {a : Arch} (h : a.dmem.wf) :
    StoresOnly (fun a => a.reg rs1 + imm.signExtend 32) (fun a => a.reg rs2) a (effect (.sw rs2 rs1 imm) a) where
  pc := rfl
  reg _ := rfl
  word := memRead_memWrite_same h _ _
  mem _ := readByte_writeWord_outside a.dmem _

/-- Settles O42: the cycle does the "Effect" line of SW, on a data memory that the invariant keeps canonical. -/
theorem storeWordResult : Obligations.StoreWordResult := by
  intro rs2 rs1 imm s h
  obtain ⟨t, hexec, himem, hparams, harch⟩ := issueIsTheSequentialEffect _ s h
  have hwf : s.arch.dmem.wf := wf_dmemAfterEx h.inv.dmem_wf
  exact ⟨t, hexec, himem, hparams, harch ▸ storesOnly_effect_sw rs2 rs1 imm hwf⟩

end Sys2Proof.Machine
end

section
/-! Settles O43 (43_branch.md): where the four branches continue, and that they change nothing else. -/

namespace Sys2Proof.Machine

/-- `branchTo` chooses the next pc by its condition and keeps the registers and the data memory (R180). -/
theorem branchesOnly_branchTo {taken : Arch → Prop} {c : Bool} {a : Arch} (hc : c = true ↔ taken a)
    (target : Arch → Word) : BranchesOnly taken target a (a.branchTo c (target a)) where
  pc_taken h := if_pos (hc.mpr h)
  pc_notTaken h := if_neg (mt hc.mp h)
  reg _ := rfl
  mem _ := rfl

/-- An instruction whose "Effect" line is a branch on `c` completes and branches on what `c` decides. -/
theorem completes_branchesOnly {i : Instr} {taken : Arch → Prop} {target : Arch → Word} {s : State} (c : Arch → Bool)
    (heffect : ∀ a, effect i a = a.branchTo (c a) (target a)) (hc : ∀ a, c a = true ↔ taken a) (h : Issues i s) :
    Completes i s (BranchesOnly taken target) :=
  completes_of_effect (fun a => heffect a ▸ branchesOnly_branchTo (hc a) target) h

/-- Settles O43: each "Effect" line is a branch to `pc + offset` on a comparison that decides the stated condition. -/
theorem branchResults : Obligations.BranchResults := by
  intro rs1 rs2 offset s
  refine ⟨?beq, ?bne, ?blt, ?bge⟩
  case beq => exact completes_branchesOnly (fun a => a.reg rs1 == a.reg rs2) (fun _ => rfl) fun _ => beq_iff_eq
  case bne => exact completes_branchesOnly (fun a => a.reg rs1 != a.reg rs2) (fun _ => rfl) fun _ => bne_iff_ne
  case blt =>
    exact completes_branchesOnly (fun a => decide ((a.reg rs1).toInt < (a.reg rs2).toInt)) (fun _ => rfl)
      fun _ => decide_eq_true_iff
  case bge =>
    exact completes_branchesOnly (fun a => decide ((a.reg rs1).toInt ≥ (a.reg rs2).toInt)) (fun _ => rfl)
      fun _ => decide_eq_true_iff

end Sys2Proof.Machine
end

section
/-! Settles O44 (44_jump.md): where JAL and JALR continue, and what they write. -/

namespace Sys2Proof.Machine

/-- `jumpTo` writes its link as `setReg` writes a value, and goes to its target instead of pc + 4 (R200). -/
theorem jumpsOnly_jumpTo (rd : RegAddr) (target : Arch → Word) (a : Arch) :
    JumpsOnly rd target a (a.jumpTo rd (target a)) where
  pc := rfl
  reg r := reg_setReg a rd r (a.pc + 4#32)
  mem _ := rfl

/-- An instruction whose "Effect" line is a jump to `target` with link in `rd` completes and does that and nothing
else. -/
theorem completes_jumpsOnly {i : Instr} {rd : RegAddr} {target : Arch → Word} {s : State}
    (heffect : ∀ a, effect i a = a.jumpTo rd (target a)) (h : Issues i s) : Completes i s (JumpsOnly rd target) :=
  completes_of_effect (fun a => heffect a ▸ jumpsOnly_jumpTo rd target a) h

/-- Settles O44: each "Effect" line is a jump with link, its target computed from the registers before the link is
written; the mask of JALR is the complement of bit 0. -/
theorem jumpResults : Obligations.JumpResults := by
  intro rd rs1 imm offset s
  have hjalr : ∀ a, effect (.jalr rd rs1 imm) a = a.jumpTo rd ((a.reg rs1 + imm.signExtend 32) &&& ~~~1#32) :=
    fun _ => rfl
  exact ⟨completes_jumpsOnly fun _ => rfl, completes_jumpsOnly hjalr⟩

end Sys2Proof.Machine
end

section
/-! Settles O45 (45_upper_immediate.md): what LUI and AUIPC leave. -/

namespace Sys2Proof.Machine

/-- Settles O45: each "Effect" line is `x[rd] <- v`, with the U-immediate as `v` for LUI and its sum with the instruction's
own pc for AUIPC; `upper20` is the append of twelve zero bits. -/
theorem upperImmediateResults : Obligations.UpperImmediateResults := by
  intro rd imm20 s
  have hlui : ∀ a, effect (.lui rd imm20) a = a.setReg rd (imm20 ++ 0#12) := fun a => by rw [effect, upper20]
  have hauipc : ∀ a, effect (.auipc rd imm20) a = a.setReg rd (a.pc + (imm20 ++ 0#12)) := fun a => by
    rw [effect, upper20]
  exact ⟨completes_writesOnly hlui, completes_writesOnly hauipc⟩

end Sys2Proof.Machine
end

section
/-! Settles O3 (30_encoding.md R90 to R96, 46_no_operation.md R240): the decoder against the opcode table. -/

namespace Sys2Proof

/-! ### The instruction of a word names a row that the word matches -/

theorem matchesWord_iff {row : TableRow} {w : Word} : row.matchesWord w = true ↔ w &&& row.mask = row.pattern :=
  beq_iff_eq

/-- The laws of family TableRow over all constructors: the word of a well-formed instruction belongs to its row. -/
theorem encode_matches_row : ∀ i : Instr, Laws.TableRow.Statement i
  | .add _ _ _ => Laws.TableRow.add _ _ _
  | .sub _ _ _ => Laws.TableRow.sub _ _ _
  | .sll _ _ _ => Laws.TableRow.sll _ _ _
  | .slt _ _ _ => Laws.TableRow.slt _ _ _
  | .xor _ _ _ => Laws.TableRow.xor _ _ _
  | .srl _ _ _ => Laws.TableRow.srl _ _ _
  | .sra _ _ _ => Laws.TableRow.sra _ _ _
  | .or _ _ _ => Laws.TableRow.or _ _ _
  | .and _ _ _ => Laws.TableRow.and _ _ _
  | .addi _ _ _ => Laws.TableRow.addi _ _ _
  | .slti _ _ _ => Laws.TableRow.slti _ _ _
  | .slli _ _ _ _ => Laws.TableRow.slli _ _ _ _
  | .srli _ _ _ _ => Laws.TableRow.srli _ _ _ _
  | .srai _ _ _ _ => Laws.TableRow.srai _ _ _ _
  | .lw _ _ _ => Laws.TableRow.lw _ _ _
  | .sw _ _ _ => Laws.TableRow.sw _ _ _
  | .beq _ _ _ => Laws.TableRow.beq _ _ _
  | .bne _ _ _ => Laws.TableRow.bne _ _ _
  | .blt _ _ _ => Laws.TableRow.blt _ _ _
  | .bge _ _ _ => Laws.TableRow.bge _ _ _
  | .jal _ _ => Laws.TableRow.jal _ _
  | .jalr _ _ _ => Laws.TableRow.jalr _ _ _
  | .lui _ _ => Laws.TableRow.lui _ _
  | .auipc _ _ => Laws.TableRow.auipc _ _

/-- The bits by which the row of an instruction selects are bits that the decoder reads for it (R93 to R95). -/
theorem row_mask_examined (i : Instr) :
    ∀ row ∈ opcodeTable, row.mnemonic = i.mnemonic → examinedBits i &&& row.mask = row.mask := by
  cases i <;> rw [Instr.mnemonic, examinedBits] <;> decide

/-- The word agrees on the row's bits with the encoding of its instruction, which belongs to the row. -/
theorem row_of_decodeWord {w : Word} {i : Instr} (h : decodeWord w = .ok i) :
    ∃ row ∈ opcodeTable, row.mnemonic = i.mnemonic ∧ row.matchesWord w = true := by
  obtain ⟨hwf, hagree⟩ := decodeDropsOnlyIgnoredBits w i h
  obtain ⟨row, hrow, hname, henc⟩ := encode_matches_row i hwf
  refine ⟨row, hrow, hname, matchesWord_iff.2 ?_⟩
  have hmask : examinedBits i &&& row.mask = row.mask := row_mask_examined i row hrow hname
  calc w &&& row.mask
      _ = w &&& examinedBits i &&& row.mask := by rw [BitVec.and_assoc, hmask]
      _ = encode i &&& examinedBits i &&& row.mask := by rw [hagree]
      _ = encode i &&& row.mask := by rw [BitVec.and_assoc, hmask]
      _ = row.pattern := matchesWord_iff.1 henc

/-! ### A word that matches a row is the word of an instruction -/

/-- An opcode of R90 with a funct3 that it supports: the three classes that select by funct3 list it (R94 to R96), the
others take any (R93). -/
abbrev IsListed (op : BitVec 7) (f3 : BitVec 3) : Prop :=
  op ∈ listedOpcodes ∧
    (op = opRType → f3 ∈ [0b000#3, 0b001#3, 0b010#3, 0b100#3, 0b101#3, 0b110#3, 0b111#3]) ∧
    (op = opIAlu → f3 ∈ [0b000#3, 0b001#3, 0b010#3, 0b101#3]) ∧
    (op = opBranch → f3 ∈ [0b000#3, 0b001#3, 0b100#3, 0b101#3])

theorem exists_decodeWord_of_isListed {w : Word} (h : IsListed (opcodeField w) (funct3Field w)) :
    ∃ i, decodeWord w = .ok i := by
  obtain ⟨hlisted, hR, hI, hB⟩ := h
  simp only [List.mem_cons, List.not_mem_nil, or_false] at hR hI hB
  obtain hop | hop | hop | hop | hop | hop | hop | hop | hop | hop := opcode_cases (opcodeField w)
  · rw [decodeWord_of_opRType hop]
    rcases hR hop with hf | hf | hf | hf | hf | hf | hf <;> simp [decodeRType, hf]
  · rw [decodeWord_of_opIAlu hop]
    rcases hI hop with hf | hf | hf | hf <;> simp [decodeIAlu, hf]
  · exact ⟨_, decodeWord_of_opLoad hop⟩
  · exact ⟨_, decodeWord_of_opStore hop⟩
  · rw [decodeWord_of_opBranch hop]
    rcases hB hop with hf | hf | hf | hf <;> simp [decodeBranch, hf]
  · exact ⟨_, decodeWord_of_opJal hop⟩
  · exact ⟨_, decodeWord_of_opJalr hop⟩
  · exact ⟨_, decodeWord_of_opLui hop⟩
  · exact ⟨_, decodeWord_of_opAuipc hop⟩
  · exact absurd hlisted hop

/-- Every row examines the whole opcode, and of funct3 enough to leave only values that its opcode supports. -/
theorem row_isListed : ∀ row ∈ opcodeTable, opcodeField row.mask = BitVec.allOnes 7 ∧
    ∀ f3 : BitVec 3, f3 &&& funct3Field row.mask = funct3Field row.pattern → IsListed (opcodeField row.pattern) f3 := by
  decide

theorem exists_decodeWord_of_matchesWord {w : Word} {row : TableRow} (hrow : row ∈ opcodeTable)
    (h : row.matchesWord w = true) : ∃ i, decodeWord w = .ok i := by
  rw [matchesWord_iff] at h
  obtain ⟨hmask, hlisted⟩ := row_isListed row hrow
  have hop : opcodeField w = opcodeField row.pattern := by
    rw [← h, opcodeField, opcodeField, BitVec.extractLsb'_and, ← opcodeField, ← opcodeField, hmask, BitVec.and_allOnes]
  have hf : funct3Field w &&& funct3Field row.mask = funct3Field row.pattern := by
    rw [← h, funct3Field, funct3Field, funct3Field, BitVec.extractLsb'_and]
  exact exists_decodeWord_of_isListed (hop ▸ hlisted _ hf)

/-! ### No word matches two rows -/

/-- Rows of different mnemonics differ in a bit that both examine. -/
theorem rows_disagree : ∀ row ∈ opcodeTable, ∀ row' ∈ opcodeTable,
    row.pattern &&& row'.mask = row'.pattern &&& row.mask → row.mnemonic = row'.mnemonic := by
  decide

theorem mnemonic_eq_of_matchesWord {w : Word} {row row' : TableRow} (hrow : row ∈ opcodeTable)
    (hrow' : row' ∈ opcodeTable) (h : row.matchesWord w = true) (h' : row'.matchesWord w = true) :
    row.mnemonic = row'.mnemonic := by
  rw [matchesWord_iff] at h h'
  refine rows_disagree row hrow row' hrow' ?_
  rw [← h, ← h', BitVec.and_assoc, BitVec.and_assoc, BitVec.and_comm row.mask]

/-- Settles O3: the instruction of a word names a row that the word matches; a word that matches a row has an
instruction, and as it matches no second row that instruction is the row's. -/
theorem decodingFollowsTheOpcodeTable : Obligations.DecodingFollowsTheOpcodeTable := by
  intro w
  refine ⟨fun i hi => row_of_decodeWord hi, fun row hrow hmatch => ?_⟩
  obtain ⟨i, hi⟩ := exists_decodeWord_of_matchesWord hrow hmatch
  obtain ⟨row', hrow', hname, hmatch'⟩ := row_of_decodeWord hi
  exact ⟨i, hi, hname.symm.trans (mnemonic_eq_of_matchesWord hrow' hrow hmatch' hmatch)⟩

end Sys2Proof
end

section
/-! Settles O46 (46_no_operation.md R240 to R242): what a word of no row leaves. -/

namespace Sys2Proof.Machine

theorem stepIdOut_of_error {w : Word} {r : Reject} (h : decodeWord w = .error r) : stepIdOut w = idOutDefault w := by
  rw [stepIdOut, h]

/-- The NOP of the default output never redirects. -/
theorem aluOutOf_default_branchTaken (w : Word) (a : Arch) : (aluOutOf (idOutDefault w) a).branchTaken = false := rfl

/-- The default output advances the pc and does nothing else. -/
theorem idOutEffect_default (w : Word) (a : Arch) : idOutEffect (idOutDefault w) a = { a with pc := a.pc + 4#32 } := rfl

/-- Settles O46: the step hands the cycle the default output, whose effect on the architectural state is pc + 4 alone. -/
theorem unlistedWordDoesNothing : Obligations.UnlistedWordDoesNothing := by
  intro s r hinv hdecode hword hacc hstall hredirect
  have hd : stepIdOut s.ifid.inst = idOutDefault s.ifid.inst := stepIdOut_of_error hdecode
  have hl : s.loadUseOn (idOutDefault s.ifid.inst).rs1 (idOutDefault s.ifid.inst).rs2 = false := hstall
  have hstep : step s = .next (s.commit (idOutDefault s.ifid.inst)) := (step_next_iff s _).2 ⟨hacc, by rw [hd]⟩
  have htaken : (s.commit (idOutDefault s.ifid.inst)).taken = false := by
    rw [State.taken, aluOut_commit_advance hinv hword hredirect hl, aluOutOf_default_branchTaken]
  have harch := arch_commit_advance hinv hword hredirect hl
  rw [idOutEffect_default] at harch
  exact ⟨_, hstep, rfl, rfl, htaken, by rw [harch], by rw [harch], by rw [harch]⟩

end Sys2Proof.Machine
end

section
/-! Settles O34, O47, O50 and O51 (47_pipeline.md R273 to R275): a stalled or discarded instruction leaves
nothing, a cycle is no instruction or one of the sequential machine, and a whole run is some number of them. -/

namespace Sys2Proof.Machine

/-! ### An all-false bundle in EX (R30, R273) -/

section
variable {s : State}

theorem taken_of_off (h : s.idex.ctrl = .off) : s.taken = false := by
  rw [State.taken, State.aluOut, h]
  rfl

theorem regsAfterEx_of_off (h : s.idex.ctrl = .off) : s.regsAfterEx = s.regsAfterMem := by
  rw [State.regsAfterEx, h, off_regWrite, writeReg_disabled]

theorem dmemAfterEx_of_off (h : s.idex.ctrl = .off) : s.dmemAfterEx = s.nextDmem := by
  simp [State.dmemAfterEx, h]

end

/-- A cycle that moves an all-false bundle to EX leaves the registers and the data memory that the older instructions
leave. -/
theorem archData_commit_of_off {s : State} {d : IdOut} (h : (s.commit d).idex.ctrl = .off) :
    (s.commit d).arch.x = s.arch.x ∧ (s.commit d).arch.dmem = s.arch.dmem :=
  ⟨regsAfterEx_of_off h, dmemAfterEx_of_off h⟩

theorem arch_ext {a b : Arch} (hpc : a.pc = b.pc) (hx : a.x = b.x) (hd : a.dmem = b.dmem) : a = b := by
  cases a
  cases b
  cases hpc
  cases hx
  cases hd
  rfl

/-! ### A load-use stall and a redirect (R257, R262, R275) -/

/-- A load-use condition is a load in EX whose destination is not x0. -/
theorem load_of_loadUse {s : State} (h : s.loadUse = true) : s.idex.ctrl.memRead = true ∧ s.idex.rd ≠ 0#5 := by
  rw [State.loadUse, State.loadUseOn, Bool.and_eq_true, Bool.and_eq_true, bne_iff_ne] at h
  exact h.1

/-- A load redirects nothing: the ADD that computes its address is no branch and no jump. -/
theorem taken_of_loadUse {s : State} (hs : s.Inv) (hl : s.loadUse = true) : s.taken = false := by
  rw [State.taken, State.aluOut, eq_ctrlLoad_of_memRead hs.idex_ctrl (load_of_loadUse hl).1]
  rfl

/-- Settles O34: what stalls is a load in EX, and a load redirects nothing. -/
theorem stallAndRedirectNeverCoincide : Obligations.StallAndRedirectNeverCoincide := by
  rintro s hs ⟨ht, hl⟩
  exact Bool.false_ne_true ((taken_of_loadUse hs hl).symm.trans ht)

/-- A stalled cycle holds PC and IF/ID (R257). -/
theorem commit_held {s : State} {d : IdOut} (ht : s.taken = false) (hl : s.loadUseOn d.rs1 d.rs2 = true) :
    (s.commit d).ifid = s.ifid ∧ (s.commit d).pc = s.pc := by
  rw [commit_ifid, commit_pc, State.nextPc, ht, hl]
  exact ⟨rfl, rfl⟩

/-- A redirecting cycle flushes IF/ID, stalled or not, and PC takes the target (R252, R262). -/
theorem commit_redirected {s : State} (d : IdOut) (ht : s.taken = true) :
    (s.commit d).ifid = .bubble ∧ (s.commit d).pc = s.target := by
  rw [commit_ifid, commit_pc, State.nextPc, ht]
  exact ⟨rfl, rfl⟩

/-- A cycle that neither stalls nor redirects latches the fetched word, and PC moves on (R254, R264). -/
theorem commit_fetched {s : State} {d : IdOut} (ht : s.taken = false) (hl : s.loadUseOn d.rs1 d.rs2 = false) :
    (s.commit d).ifid = ⟨s.pc, imemRead s.imem s.pc⟩ ∧ (s.commit d).pc = s.pc + 4#32 := by
  rw [commit_ifid, commit_pc, State.nextPc, ht, hl]
  exact ⟨rfl, rfl⟩

/-- Neither a stall nor a redirect moves the next address in program order: it is held in IF/ID or PC, or it is the
target that PC has taken. -/
theorem nextInOrder_commit_bubble {s : State} {d : IdOut} (h : s.taken = true ∨ s.loadUseOn d.rs1 d.rs2 = true) :
    (s.commit d).nextInOrder = s.nextInOrder := by
  rw [State.nextInOrder, (commit_idex_bubble s d h).2, State.nextInOrder]
  cases ht : s.taken with
  | true =>
    obtain ⟨hifid, hpc⟩ := commit_redirected d ht
    rw [hifid, hpc]
    rfl
  | false =>
    obtain ⟨hifid, hpc⟩ := commit_held ht (h.resolve_left (Bool.eq_false_iff.1 ht))
    rw [hifid, hpc]
    rfl

theorem arch_commit_bubble {s : State} {d : IdOut} (h : s.taken = true ∨ s.loadUseOn d.rs1 d.rs2 = true) :
    (s.commit d).arch = s.arch := by
  have hoff : (s.commit d).idex.ctrl = .off := by rw [(commit_idex_bubble s d h).1, idexBubble_ctrl]
  obtain ⟨hx, hd⟩ := archData_commit_of_off hoff
  exact arch_ext (nextInOrder_commit_bubble h) hx hd

theorem leavesNoEffect_commit {s : State} {d : IdOut} (hs : s.Inv) (hd : s.loadUseOn d.rs1 d.rs2 = s.loadUse)
    (h : s.loadUse = true ∨ s.taken = true) : LeavesNoEffect s (s.commit d) where
  arch := arch_commit_bubble (hd ▸ h.symm)
  imem := rfl
  params := rfl
  bubble := (commit_idex_bubble s d (hd ▸ h.symm)).1
  stalled hl := commit_held (taken_of_loadUse hs hl) (hd.trans hl)

/-- Settles O47: the cycle of an instruction and of the no-op are commits with the register fields of the word in ID,
and such a commit puts a bubble in EX. -/
theorem stalledOrDiscardedInstructionHasNoEffect : Obligations.StalledOrDiscardedInstructionHasNoEffect := by
  intro s hs hacc h
  refine ⟨fun i hi => ⟨s.commit (idOutOf i), ?_, leavesNoEffect_commit hs (loadUseOn_idOutOf hi) h⟩,
    fun r _ => ⟨s.commit (idOutDefault s.ifid.inst), ?_, leavesNoEffect_commit hs rfl h⟩⟩
  · rw [exec_eq_cycle, cycle_next_iff]
    exact ⟨hacc, rfl⟩
  · rw [execNoOp, cycle_next_iff]
    exact ⟨hacc, rfl⟩

/-! ### One cycle and one instruction of the sequential machine (R274) -/

theorem nextInOrder_of_bubble {s : State} (hbubble : s.ifid = .bubble) (ht : s.taken = false) :
    s.nextInOrder = s.pc := by
  simp [State.nextInOrder, ht, hbubble]

/-- What the decoder's output for the word at pc does is one step of the sequential machine. -/
theorem idOutEffect_stepIdOut (imem : Memory) (a : Arch) :
    idOutEffect (stepIdOut (imemRead imem a.pc)) a = seqStep imem a := by
  rw [stepIdOut, seqStep]
  cases decodeWord (imemRead imem a.pc) with
  | ok i => exact idOutEffect_idOutOf i a
  | error r => exact idOutEffect_default _ a

/-- A word in ID that neither stalls nor is discarded is one instruction of the sequential machine, listed or not. -/
theorem arch_commit_word {s : State} (hs : s.Inv) (hword : s.ifid ≠ .bubble) (hl : s.loadUse = false)
    (ht : s.taken = false) : (s.commit (stepIdOut s.ifid.inst)).arch = seqStep s.imem s.arch := by
  obtain ⟨-, hinst, -⟩ := hs.ifid_fetched.resolve_left hword
  have hfetched : s.ifid.inst = imemRead s.imem s.arch.pc := by rw [arch_pc, nextInOrder_of_word hword ht, hinst]
  rw [arch_commit_advance hs hword ht ((loadUseOn_stepIdOut s).trans hl), hfetched, idOutEffect_stepIdOut]

theorem decodeWord_zero : decodeWord 0#32 = .error (.unrecognisedOpcode 0#7) := decodeWord_of_unlisted (by decide)

/-- A zero word only advances the pc of the sequential machine (R240, R242). -/
theorem seqStep_of_zero {imem : Memory} {a : Arch} (h : imemRead imem a.pc = 0#32) :
    seqStep imem a = { a with pc := a.pc + 4#32 } := by
  rw [seqStep, h, decodeWord_zero]

/-- Whatever a cycle does, a word of no row of the table moves to EX as an all-false bundle (R89, R240). -/
theorem commit_idex_off_of_error {s : State} {r : Reject} (h : decodeWord s.ifid.inst = .error r) :
    (s.commit (stepIdOut s.ifid.inst)).idex.ctrl = .off :=
  commit_idex_of (P := fun l => l.ctrl = .off) rfl (by rw [idexIn_ctrl, stepIdOut_of_error h]; rfl)

theorem commit_idex_off_of_bubble {s : State} (h : s.ifid = .bubble) :
    (s.commit (stepIdOut s.ifid.inst)).idex.ctrl = .off :=
  commit_idex_off_of_error (by rw [h, ifidBubble_inst, decodeWord_zero])

/-- Where IF/ID holds its bubble the cycle only fetches: the next instruction stays the one at PC, unless the fetch is
of a zero word at address 0, whose IF/ID contents are a bubble's; then that no-op is passed over (log 19). -/
theorem arch_commit_fetch {s : State} (hbubble : s.ifid = .bubble) (hl : s.loadUse = false) (ht : s.taken = false) :
    (s.commit (stepIdOut s.ifid.inst)).arch = s.arch ∨
      (s.commit (stepIdOut s.ifid.inst)).arch = seqStep s.imem s.arch := by
  have hoff := commit_idex_off_of_bubble hbubble
  obtain ⟨hx, hd⟩ := archData_commit_of_off hoff
  have harch : s.arch.pc = s.pc := nextInOrder_of_bubble hbubble ht
  obtain ⟨hifid, hpc⟩ := commit_fetched ht ((loadUseOn_stepIdOut s).trans hl)
  by_cases hzero : (⟨s.pc, imemRead s.imem s.pc⟩ : IfId) = .bubble
  · right
    rw [seqStep_of_zero (by rw [harch]; exact congrArg IfId.inst hzero)]
    refine arch_ext ?_ hx hd
    rw [arch_pc, State.nextInOrder, taken_of_off hoff, hifid, if_pos hzero, hpc, harch]
    rfl
  · left
    refine arch_ext ?_ hx hd
    rw [arch_pc, State.nextInOrder, taken_of_off hoff, hifid, if_neg hzero, harch]
    rfl

/-- Settles O50: a stall or a redirect leaves the architectural state alone, a word that advances is one instruction,
and a bubble in ID is none or the no-op at address 0. -/
theorem cycleRefinesTheSequentialMachine : Obligations.CycleRefinesTheSequentialMachine := by
  intro s t hs hstep
  obtain ⟨-, rfl⟩ := (step_next_iff s t).1 hstep
  refine ⟨rfl, rfl, ?_⟩
  cases ht : s.taken with
  | true => exact .inl (arch_commit_bubble (.inl ht))
  | false =>
    cases hl : s.loadUse with
    | true => exact .inl (arch_commit_bubble (.inr ((loadUseOn_stepIdOut s).trans hl)))
    | false =>
      by_cases hbubble : s.ifid = .bubble
      · exact arch_commit_fetch hbubble hl ht
      · exact .inr (arch_commit_word hs hbubble hl ht)

/-! ### Runs (R274, R332) -/

/-- The simulation of whole runs, from any state of the invariant. -/
theorem runCycles_refines {k : Nat} {s t : State} (hs : s.Inv) (hrun : runCycles k s = .next t) :
    t.imem = s.imem ∧ t.params = s.params ∧ ∃ n, n ≤ k ∧ t.arch = seqRun s.imem n s.arch := by
  induction k generalizing s with
  | zero =>
    cases hrun
    exact ⟨rfl, rfl, 0, le_rfl, rfl⟩
  | succ k ih =>
    obtain ⟨u, hstep, hrun⟩ := (runCycles_succ k s t).1 hrun
    obtain ⟨himem, hparams, harch⟩ := cycleRefinesTheSequentialMachine s u hs hstep
    obtain ⟨himem', hparams', n, hn, hseq⟩ := ih (stepKeepsTheInvariant s u hs hstep) hrun
    refine ⟨himem'.trans himem, hparams'.trans hparams, ?_⟩
    rw [himem] at hseq
    rcases harch with harch | harch
    · exact ⟨n, by omega, by rw [hseq, harch]⟩
    · exact ⟨n + 1, by omega, by rw [hseq, harch, seqRun]⟩

/-- At boot nothing older is in the pipeline, so the architectural state is the initial one (R332). -/
theorem arch_boot (p : Params) (imem dmem : Memory) : (State.boot p imem dmem).arch = Arch.initial dmem := rfl

theorem boot_inv {p : Params} {imem dmem : Memory} (hcap : p.imemWords < 2 ^ 30) (himem : imem.wf) (hdmem : dmem.wf)
    (himemIn : imem.within p.imemWords) (hdmemIn : dmem.within p.dmemWords) : (State.boot p imem dmem).Inv where
  imem_capacity := hcap
  imem_wf := himem
  dmem_wf := hdmem
  imem_within := himemIn
  dmem_within := hdmemIn
  x0_zero := Vector.getElem_replicate _
  idex_rs1_x0 _ := rfl
  idex_rs2_x0 _ := rfl
  idex_ctrl := List.mem_cons_self
  exmem_ctrl := List.mem_cons_self
  memwb_ctrl := List.mem_cons_self
  ifid_fetched := .inl rfl

/-- Settles O51: the simulation from a boot state, which meets the invariant. -/
theorem runsRefineTheSequentialMachine : Obligations.RunsRefineTheSequentialMachine := by
  intro p imem dmem k s hcap himem hdmem himemIn hdmemIn hrun
  exact runCycles_refines (boot_inv hcap himem hdmem himemIn hdmemIn) hrun

end Sys2Proof.Machine
end

section
/-! Settles O9, O10, O11, O13, O30 to O33 and O35 to O38 (47_pipeline.md R254 to R276): the word from fetch to
EX, forwarding, the load-use stall, the redirect, and the stages behind EX. -/

namespace Sys2Proof.Machine

/-! ### From fetch to EX (R254, R255, R264) -/

/-- Settles O9: the two cases of the dispatch. -/
theorem stepRunsTheDecodedInstruction : Obligations.StepRunsTheDecodedInstruction := by
  intro s
  exact ⟨fun i hi => by rw [step, hi], fun r hr => by rw [step, hr]⟩

/-- Settles O10: the fetched word is in IF/ID after the cycle, and the next step runs what it decodes to. -/
theorem fetchedWordRunsInTheNextStep : Obligations.FetchedWordRunsInTheNextStep := by
  intro s t hl ht hstep
  obtain ⟨-, rfl⟩ := (step_next_iff s t).1 hstep
  obtain ⟨hifid, hpc⟩ := commit_fetched ht ((loadUseOn_stepIdOut s).trans hl)
  obtain ⟨hok, herror⟩ := stepRunsTheDecodedInstruction (s.commit (stepIdOut s.ifid.inst))
  rw [hifid] at hok herror
  exact ⟨hifid, hpc, hok, herror⟩

theorem decodeSignals_fields (w : Word) :
    (decodeSignals w).rs1 = rs1Field w ∧ (decodeSignals w).rs2 = rs2Field w ∧ (decodeSignals w).rd = rdField w := by
  rw [← stepIdOut_eq_decodeSignals]
  exact stepIdOut_fields w

/-- Settles O11: ID/EX takes its input, with the decoder's register addresses as extracted from the word. -/
theorem decodeStageFillsIdEx : Obligations.DecodeStageFillsIdEx := by
  intro s t hl ht hstep
  obtain ⟨hrs1, hrs2, hrd⟩ := decodeSignals_fields s.ifid.inst
  rw [idex_of_step hl ht hstep, State.idexIn, hrs1, hrs2, hrd]

/-- Settles O13: the placed word is the instruction's encoding, which decodes back to it. -/
theorem placedWordRunsInTheVeryNextStep : Obligations.PlacedWordRunsInTheVeryNextStep := by
  intro s i hi
  have hdecode : decodeWord (encode i) = .ok i := decodeOfEncodeIsIdentity i hi
  have hplaced : (s.withFetchWord 32 (encode i).toNat).ifid.inst = encode i := by
    apply BitVec.eq_of_toNat_eq
    simp [Nat.mod_eq_of_lt (encode i).isLt]
  refine ⟨by rw [decodeTableWord_eq, hdecode], ?_⟩
  exact (stepRunsTheDecodedInstruction _).1 i (by rw [hplaced, hdecode])

/-! ### Forwarding (R258, R276) -/

/-- Settles O30: the cases of what forwarding answers, nearest writer first. -/
theorem forwardingTakesTheNearestWriter : Obligations.ForwardingTakesTheNearestWriter := by
  intro s r v
  refine ⟨fun hen hrd hr => ?_, fun hex hen hrd hr => ?_, fun hex hwb => ?_, forward_x0 s v⟩
  · rw [forward_eq, if_pos ⟨hen, hrd.symm, hr⟩]
  · rw [forward_eq, if_neg fun h => hex ⟨h.1, h.2.1.symm⟩, if_pos ⟨hen, hrd.symm, hr⟩]
  · rw [forward_eq, if_neg fun h => hex ⟨h.1, h.2.1.symm⟩, if_neg fun h => hwb ⟨h.1, h.2.1.symm⟩]

/-- The selector chooses EX/MEM only for the register that the instruction in MEM writes, and never for x0. -/
theorem rd_of_forwardSel_exMem {s : State} {r : RegAddr} (h : s.forwardSel r = .exMem) :
    r = s.exmem.rdAddr ∧ r ≠ 0#5 := by
  unfold State.forwardSel at h
  split_ifs at h with hex
  simp only [Bool.and_eq_true, bne_iff_ne, ne_eq, beq_iff_eq] at hex
  obtain ⟨⟨-, hrd⟩, rfl⟩ := hex
  exact ⟨rfl, hrd⟩

/-- Behind a load in EX there is a bubble, whose sources are x0, or an instruction that did not stall, none of whose
sources but x0 is the load's destination. -/
theorem source_commit_ne_load {s : State} (d : IdOut) (hread : s.idex.ctrl.memRead = true) :
    ((s.commit d).idex.rs1 = s.idex.rd → (s.commit d).idex.rs1 = 0#5) ∧
      ((s.commit d).idex.rs2 = s.idex.rd → (s.commit d).idex.rs2 = 0#5) := by
  by_cases hbubble : s.taken = true ∨ s.loadUseOn d.rs1 d.rs2 = true
  · rw [(commit_idex_bubble s d hbubble).1]
    exact ⟨fun _ => rfl, fun _ => rfl⟩
  · obtain ⟨ht, hl⟩ := not_or.1 hbubble
    rw [Bool.not_eq_true] at ht hl
    rw [commit_idex_advance s d ht hl]
    exact source_ne_load hl hread

/-- Settles O35: to choose EX/MEM, a source would have to be the load's destination and not x0. -/
theorem forwardingNeverTakesALoadAddress : Obligations.ForwardingNeverTakesALoadAddress := by
  intro s t hstep hload
  obtain ⟨-, rfl⟩ := (step_next_iff s t).1 hstep
  obtain ⟨h1, h2⟩ := source_commit_ne_load (stepIdOut s.ifid.inst) hload
  refine ⟨fun hsel => ?_, fun hsel => ?_⟩
  · obtain ⟨hrd, hr⟩ := rd_of_forwardSel_exMem hsel
    exact hr (h1 hrd)
  · obtain ⟨hrd, hr⟩ := rd_of_forwardSel_exMem hsel
    exact hr (h2 hrd)

/-! ### The stages behind EX (R263, R266, R269) -/

/-- Settles O37: EX/MEM and MEM/WB take their inputs in every commit. -/
theorem laterStagesAdvanceInEveryCycle : Obligations.LaterStagesAdvanceInEveryCycle := by
  intro s t hstep
  obtain ⟨-, rfl⟩ := (step_next_iff s t).1 hstep
  exact ⟨commit_exmem s _, commit_memwb s _⟩

/-! ### The load-use stall (R256, R257) -/

theorem loadUse_of_bubble {s : State} (h : s.idex = .bubble) : s.loadUse = false := by
  rw [State.loadUse, State.loadUseOn, h]
  rfl

/-- A stalling cycle holds PC and IF/ID, and the bubble it puts in EX redirects nothing. -/
theorem step_of_loadUse {s t : State} (hs : s.Inv) (hl : s.loadUse = true) (hstep : step s = .next t) :
    t.pc = s.pc ∧ t.ifid = s.ifid ∧ t.idex = .bubble ∧ t.taken = false := by
  obtain ⟨-, rfl⟩ := (step_next_iff s t).1 hstep
  have hlOn := (loadUseOn_stepIdOut s).trans hl
  obtain ⟨hifid, hpc⟩ := commit_held (taken_of_loadUse hs hl) hlOn
  obtain ⟨hidex, htaken⟩ := commit_idex_bubble s (stepIdOut s.ifid.inst) (.inr hlOn)
  exact ⟨hpc, hifid, hidex, htaken⟩

/-- With a bubble in EX and a load in MEM, the next cycle's forwarding hands out the loaded word (R258). -/
theorem forward_of_load {t u : State} {r : RegAddr} (hstep : step t = .next u) (hidex : t.idex = .bubble)
    (hload : t.exmem.ctrl = ctrlLoad) (hr : r = t.exmem.rdAddr) (h0 : r ≠ 0#5) (v : Word) :
    u.forward r v = memRead t.dmem t.exmem.aluResult := by
  obtain ⟨-, rfl⟩ := (step_next_iff t u).1 hstep
  rw [forward_commit, hidex, idexBubble_ctrl, off_regWrite, if_neg (by simp), hload, if_pos ⟨rfl, hr, h0⟩,
    State.memData, hload]
  rfl

/-- Settles O31: the stall holds ID behind a bubble, which neither stalls nor redirects, so the consumer enters EX in
the next cycle while the load leaves MEM. -/
theorem loadUseStallsExactlyOneCycle : Obligations.LoadUseStallsExactlyOneCycle := by
  intro s t u hs hl hst htu
  obtain ⟨hread, hrd⟩ := load_of_loadUse hl
  have hload : s.idex.ctrl = ctrlLoad := eq_ctrlLoad_of_memRead hs.idex_ctrl hread
  obtain ⟨hpc, hifid, hidex, htaken⟩ := step_of_loadUse hs hl hst
  obtain ⟨hexmem, -⟩ := laterStagesAdvanceInEveryCycle s t hst
  obtain ⟨-, hmemwb⟩ := laterStagesAdvanceInEveryCycle t u htu
  have hlt : t.loadUse = false := loadUse_of_bubble hidex
  have hid := decodeStageFillsIdEx t u hlt htaken htu
  rw [hifid] at hid
  have hforward : ∀ r v, r = s.idex.rd → u.forward r v = memRead t.dmem s.aluOut.result := by
    rintro r v rfl
    rw [forward_of_load htu hidex (by rw [hexmem, hload]) (by rw [hexmem]) hrd, hexmem]
  have hdata : u.memwb.memData = memRead t.dmem s.aluOut.result := by
    rw [hmemwb, hexmem, if_pos hread]
  exact ⟨hpc, hifid, hidex, hlt, htaken, by rw [hid], by rw [hid], by rw [hid], by rw [hmemwb, hexmem], hdata,
    hforward _ _, hforward _ _⟩

/-! ### The redirect (R262, R264) -/

/-- Settles O32: the redirecting cycle leaves bubbles in IF/ID and ID/EX, and behind them nothing stalls or redirects,
so the next cycle fetches at the target. -/
theorem redirectFlushesTheTwoYoungerInstructions : Obligations.RedirectFlushesTheTwoYoungerInstructions := by
  intro s t ht hstep
  obtain ⟨-, rfl⟩ := (step_next_iff s t).1 hstep
  obtain ⟨hifid, hpc⟩ := commit_redirected (stepIdOut s.ifid.inst) ht
  obtain ⟨hidex, htaken⟩ := commit_idex_bubble s (stepIdOut s.ifid.inst) (.inl ht)
  refine ⟨hpc, hifid, hidex, rfl, rfl, rfl, fun u hu => ?_⟩
  obtain ⟨hfetch, -⟩ := fetchedWordRunsInTheNextStep _ u (loadUse_of_bubble hidex) htaken hu
  rw [hfetch, hpc, commit_imem]

/-- The operations on which the ALU redirects (R181 to R184, R201, R202). -/
theorem alu_branchTaken_iff (op : AluOp) (a b pc imm : Word) : (alu op a b pc imm).branchTaken = true ↔
    ((op = .beq ∧ a = b) ∨ (op = .bne ∧ a ≠ b) ∨ (op = .blt ∧ a.toInt < b.toInt) ∨ (op = .bge ∧ a.toInt ≥ b.toInt)) ∨
      op = .jal ∨ op = .jalr := by
  cases op <;> simp [alu, wordsEqual, wordsDiffer, signedLess, signedGreaterEq]

/-- The branch and jump bits of a decoder bundle say which operations it selects (R91). -/
theorem branch_jump_of_bundle {c : ControlSignals} (h : c ∈ decoderBundles) :
    (c.branch = true ↔ c.aluOp = .beq ∨ c.aluOp = .bne ∨ c.aluOp = .blt ∨ c.aluOp = .bge) ∧
      (c.jump = true ↔ c.aluOp = .jal ∨ c.aluOp = .jalr) := by
  revert c
  decide

/-- Settles O33: the ALU redirects on the operations of branches and jumps, which are those with that control bit. -/
theorem redirectAgreesWithTheControlBits : Obligations.RedirectAgreesWithTheControlBits := by
  intro s hs
  obtain ⟨hbranch, hjump⟩ := branch_jump_of_bundle hs.idex_ctrl
  rw [State.taken, State.aluOut, alu_branchTaken_iff, hbranch, hjump]
  refine or_congr_left (and_iff_right_of_imp ?_).symm
  exact Or.imp And.left (Or.imp And.left (Or.imp And.left And.left))

/-- Settles O36: the three branches of the next PC. -/
theorem nextPcFollowsTheRedirectAndTheStall : Obligations.NextPcFollowsTheRedirectAndTheStall := by
  intro s t hstep
  obtain ⟨-, rfl⟩ := (step_next_iff s t).1 hstep
  refine ⟨fun ht => (commit_redirected _ ht).2, fun ht hl => ?_, fun ht hl => ?_⟩
  · exact (commit_held ht ((loadUseOn_stepIdOut s).trans hl)).2
  · exact (commit_fetched ht ((loadUseOn_stepIdOut s).trans hl)).2

/-! ### All-false bundles (R30, R273) -/

/-- An all-false bundle in MEM makes no access. -/
theorem noAccess_of_off {s : State} (h : s.exmem.ctrl = .off) :
    s.nextDmem = s.dmem ∧ s.writeObs.wrote = false ∧ s.badLoad = [] ∧ s.badStore = [] := by
  have hw : s.exmem.ctrl.memWrite = false := by rw [h, off_memWrite]
  refine ⟨nextDmem_of_noStore hw, congrArg WriteObs.wrote (writeObs_of_noStore hw), ?_, ?_⟩
  · rw [State.badLoad, h]
    rfl
  · rw [State.badStore, h]
    rfl

theorem nextRegs_of_off {s : State} (h : s.memwb.ctrl = .off) : s.nextRegs = s.x := by
  rw [State.nextRegs, h, off_regWrite, writeReg_disabled]

/-- Settles O38: an all-false bundle acts in no stage; a redirect leaves one in ID/EX and a bubble in IF/ID, whose zero
word gives the next one. -/
theorem discardedInstructionsNeverAct : Obligations.DiscardedInstructionsNeverAct := by
  refine ⟨fun s t hstep => ?_, fun s t u v w ht hst htu huv hvw => ?_⟩
  · obtain ⟨-, rfl⟩ := (step_next_iff s t).1 hstep
    exact ⟨taken_of_off, noAccess_of_off, nextRegs_of_off⟩
  · obtain ⟨-, hifid, hidex, -⟩ := redirectFlushesTheTwoYoungerInstructions s t ht hst
    have holder : t.idex.ctrl = .off := by rw [hidex, idexBubble_ctrl]
    have hyounger : u.idex.ctrl = .off := by
      obtain ⟨-, rfl⟩ := (step_next_iff t u).1 htu
      exact commit_idex_off_of_bubble hifid
    obtain ⟨hu, -⟩ := laterStagesAdvanceInEveryCycle t u htu
    obtain ⟨hv, hv'⟩ := laterStagesAdvanceInEveryCycle u v huv
    obtain ⟨-, hw⟩ := laterStagesAdvanceInEveryCycle v w hvw
    simp only [hw, hv, hv', hu, holder, hyounger, and_self]

end Sys2Proof.Machine
end

section
/-! Settles O22, O23, O25, O52, O53 and O56 (70_reset_and_hazards.md): reset and boot, the stop cycle with its drain,
and what a finished run leaves and reports. -/

namespace Sys2Proof.Machine

/-! ### Reset and boot (R330 to R332) -/

/-- Settles O22: the reset input yields `afterReset`, whose fields are those of S_0 and the memories as they are. -/
theorem resetInputYieldsTheResetState : Obligations.ResetInputYieldsTheResetState := by
  intro s
  exact ⟨rfl, s.afterReset, rfl, rfl, rfl, rfl, rfl, rfl, rfl, rfl, rfl, rfl⟩

/-- Settles O23: a boot state meets the invariant, and S_0 is the boot state of empty memories. -/
theorem invariantHoldsAtBoot : Obligations.InvariantHoldsAtBoot := by
  have hempty : ∀ n, Memory.within [] n := fun _ _ hc => absurd hc List.not_mem_nil
  exact ⟨boot_inv (p := Config.params) (by decide) wf_nil wf_nil (hempty _) (hempty _),
    fun _ _ _ hcap himem hdmem himemIn hdmemIn => boot_inv hcap himem hdmem himemIn hdmemIn⟩

theorem wordIndex_resetPc : wordIndex Config.resetPc = 0 := by decide

/-- Settles O25: at boot MEM makes no access and EX holds a bubble, so cycle 0 only fetches word 0. -/
theorem firstCycleFetchesWordZero : Obligations.FirstCycleFetchesWordZero := by
  intro p imem dmem hp
  have hacc : (State.boot p imem dmem).Accessible := by
    rw [accessible_iff]
    exact ⟨by simpa [wordIndex_resetPc] using hp, by simp⟩
  obtain ⟨t, ht⟩ := (exists_step_next_iff _).2 hacc
  have hl : (State.boot p imem dmem).loadUse = false := loadUse_of_bubble rfl
  have hnot : (State.boot p imem dmem).taken = false := taken_of_off rfl
  obtain ⟨hifid, hpc, -⟩ := fetchedWordRunsInTheNextStep _ t hl hnot ht
  rw [boot_imem, boot_pc, imemRead, wordIndex_resetPc] at hifid
  have hidex := decodeStageFillsIdEx _ t hl hnot ht
  rw [boot_ifid, ifidBubble_inst, decodeSignals_of_error decodeWord_zero] at hidex
  obtain ⟨hexmem, hmemwb⟩ := laterStagesAdvanceInEveryCycle _ t ht
  refine ⟨t, ht, hl, hnot, fun _ => rfl, hpc, hifid, hidex, hexmem, hmemwb, ?_⟩
  obtain ⟨-, rfl⟩ := (step_next_iff _ t).1 ht
  exact ⟨rfl, rfl⟩

/-! ### The stop cycle and the drain (R333) -/

/-- What the stop condition says of a cycle (R333). -/
theorem stopsHere_iff (s : State) : s.stopsHere = true ↔
    wordIndex s.pc < s.params.imemWords ∧ imemRead s.imem s.pc = 0#32 ∧ s.loadUse = false ∧ s.taken = false := by
  simp [State.stopsHere, State.fetchWord, and_assoc]

/-- After the stop cycle the registers and the data memory are to become those that the instruction in ID leaves; where
there is none, the next instruction is the stop word itself, which leaves them alone. -/
theorem archData_of_stop {s t : State} (hs : s.Inv) (hstop : s.stopsHere = true) (hstep : step s = .next t) :
    t.arch.x = (seqStep s.imem s.arch).x ∧ t.arch.dmem = (seqStep s.imem s.arch).dmem := by
  obtain ⟨-, hzero, hl, ht⟩ := (stopsHere_iff s).1 hstop
  obtain ⟨-, rfl⟩ := (step_next_iff s t).1 hstep
  by_cases hbubble : s.ifid = .bubble
  · have hpc : s.arch.pc = s.pc := nextInOrder_of_bubble hbubble ht
    rw [seqStep_of_zero (hpc ▸ hzero)]
    exact archData_commit_of_off (commit_idex_off_of_bubble hbubble)
  · rw [arch_commit_word hs hbubble hl ht]
    exact ⟨rfl, rfl⟩

/-- With a zero word in ID nothing younger stores within the next three cycles, so the data memory stays what the older
instructions leave (R242, R333). -/
theorem dmem_of_drain {t e : State} (hzero : t.ifid.inst = 0#32) (hrun : runCycles 3 t = .next e) :
    e.dmem = t.arch.dmem := by
  obtain ⟨u, htu, hrun⟩ := (runCycles_succ 2 t e).1 hrun
  obtain ⟨v, huv, hrun⟩ := (runCycles_succ 1 u e).1 hrun
  obtain ⟨w, hvw, hrun⟩ := (runCycles_succ 0 v e).1 hrun
  cases hrun
  have hold : v.dmem = t.arch.dmem := olderInstructionsCommit.1 t v
    ((runCycles_succ 1 t v).2 ⟨u, htu, (runCycles_succ 0 u v).2 ⟨v, huv, rfl⟩⟩)
  have hu : u.idex.ctrl = .off := by
    obtain ⟨-, rfl⟩ := (step_next_iff t u).1 htu
    exact commit_idex_off_of_error (by rw [hzero, decodeWord_zero])
  have hv : v.exmem.ctrl = .off := by
    rw [(laterStagesAdvanceInEveryCycle u v huv).1]
    exact hu
  obtain ⟨-, hmem, -⟩ := discardedInstructionsNeverAct.1 v e hvw
  exact (hmem hv).1.trans hold

/-- Settles O52: the stop cycle issues the instruction in ID and fetches the zero word; three cycles later the register
writes have been made, and the zero word has stored nothing. -/
theorem drainCommitsExactlyTheProgram : Obligations.DrainCommitsExactlyTheProgram := by
  intro s e hs hstop hrun
  obtain ⟨t, hstep, hrun⟩ := (runCycles_succ 3 s e).1 hrun
  obtain ⟨-, hword, hl, ht⟩ := (stopsHere_iff s).1 hstop
  obtain ⟨hx, hd⟩ := archData_of_stop hs hstop hstep
  have hzero : t.ifid.inst = 0#32 := by rw [(fetchedWordRunsInTheNextStep s t hl ht hstep).1, hword]
  exact ⟨(olderInstructionsCommit.2 t e hrun).trans hx, (dmem_of_drain hzero hrun).trans hd⟩

/-! ### A finished run (R333, R334) -/

/-- One more instruction at the end of a sequential run. -/
theorem seqRun_succ (imem : Memory) (n : Nat) (a : Arch) : seqRun imem (n + 1) a = seqStep imem (seqRun imem n a) := by
  induction n generalizing a with
  | zero => rfl
  | succ n ih => exact ih (seqStep imem a)

theorem runCycles_frame {k : Nat} {s t : State} (h : runCycles k s = .next t) :
    t.imem = s.imem ∧ t.params = s.params := by
  refine runCycles_preserves (P := fun u => u.imem = s.imem ∧ u.params = s.params) (fun u v hu huv => ?_) k s t
    ⟨rfl, rfl⟩ h
  obtain ⟨-, rfl⟩ := (step_next_iff u v).1 huv
  exact hu

/-- What `loadRun` starts is a state of the invariant, where the capacity is below the whole address space. -/
theorem loadRun_inv {p : Params} {image : List Word} {dmem : Memory} {s : State} (hcap : p.imemWords < 2 ^ 30)
    (h : loadRun p image dmem = some s) : s.Inv := by
  obtain ⟨himem, hwithin, -⟩ := ((imageIsPlacedFromWordZero p image dmem).2 s h).2
  obtain ⟨-, ⟨hdwf, hdwithin⟩, rfl⟩ := loadRun_eq_some.1 h
  exact boot_inv hcap himem hdwf hwithin hdwithin

/-- A finished run is the loaded state, run to a stop cycle and drained (R332, R333). -/
theorem runProgram_ended {p : Params} {maxCycles : Nat} {image : List Word} {dmem : Memory} {t : Nat} {z : Word}
    {ob : ProgramObligations} {e : State} (h : runProgram p maxCycles image dmem = .ended t z ob e) :
    ∃ s, loadRun p image dmem = some s ∧ runFrom maxCycles 0 .start s = .ended t z ob e := by
  rw [runProgram] at h
  cases hload : loadRun p image dmem with
  | none =>
    rw [hload] at h
    cases h
  | some s =>
    rw [hload] at h
    exact ⟨s, rfl, h⟩

/-- Settles O53: up to the stop cycle the run is some number of sequential instructions, and the drain adds the one in
ID. -/
theorem finishedRunHasTheSequentialResult : Obligations.FinishedRunHasTheSequentialResult := by
  intro p maxCycles image dmem t z ob e hcap hended
  obtain ⟨s, hload, hrun⟩ := runProgram_ended hended
  obtain ⟨n, s1, s2, _, hn, rfl, hreach, hstep, hstop, rfl, -, hdrain, -, -⟩ := runFrom_ended hrun
  have hs : s.Inv := loadRun_inv hcap hload
  obtain ⟨himem, -, m, hm, harch⟩ := runCycles_refines hs hreach
  have hs1 : s1.Inv := runCycles_preserves stepKeepsTheInvariant n s s1 hs hreach
  obtain ⟨hx, hd⟩ := drainCommitsExactlyTheProgram s1 e hs1 hstop ((runCycles_succ 3 s1 e).2 ⟨s2, hstep, hdrain⟩)
  obtain ⟨-, hzero, -, -⟩ := (stopsHere_iff s1).1 hstop
  obtain ⟨hfits, -, rfl⟩ := loadRun_eq_some.1 hload
  rw [himem, boot_imem] at hzero hx hd
  rw [harch, arch_boot, boot_imem, ← seqRun_succ] at hx hd
  exact ⟨_, if_pos hfits, by omega, hzero, m + 1, by omega, hx, hd⟩

/-! ### The program obligations (R334) -/

/-- Every bit of the opcode is examined, so a word has the opcode of the instruction that it decodes to (R90). -/
theorem opcodeField_of_decodeWord {w : Word} {i : Instr} (h : decodeWord w = .ok i) :
    opcodeField w = opcodeField (encode i) := by
  obtain ⟨-, hagree⟩ := decodeDropsOnlyIgnoredBits w i h
  have hmask : opcodeField (examinedBits i) = BitVec.allOnes 7 := by
    cases i <;> rw [examinedBits] <;> decide
  have hand : ∀ v, opcodeField (v &&& examinedBits i) = opcodeField v := fun v => by
    rw [opcodeField, BitVec.extractLsb'_and, ← opcodeField, ← opcodeField, hmask, BitVec.and_allOnes]
  rw [← hand w, ← hagree, hand]

theorem opcodeField_eq_opJal_iff (w : Word) :
    opcodeField w = opJal ↔ ∃ rd offset, decodeWord w = .ok (.jal rd offset) := by
  refine ⟨fun h => ⟨_, _, decodeWord_of_opJal h⟩, ?_⟩
  rintro ⟨rd, offset, h⟩
  rw [opcodeField_of_decodeWord h, encode, opcodeField_encodeJ]

theorem opcodeField_eq_opJalr_iff (w : Word) :
    opcodeField w = opJalr ↔ ∃ rd rs1 imm, decodeWord w = .ok (.jalr rd rs1 imm) := by
  refine ⟨fun h => ⟨_, _, _, decodeWord_of_opJalr h⟩, ?_⟩
  rintro ⟨rd, rs1, imm, h⟩
  rw [opcodeField_of_decodeWord h, encode, opcodeField_encodeI]

/-- No jump stands at an address when the word there decodes to neither JAL nor JALR. -/
theorem isJumpAt_eq_false_iff (imem : Memory) (a : Word) : isJumpAt imem a = false ↔
    (∀ rd offset, decodeWord (imemRead imem a) ≠ .ok (.jal rd offset)) ∧
      ∀ rd rs1 imm, decodeWord (imemRead imem a) ≠ .ok (.jalr rd rs1 imm) := by
  rw [isJumpAt, Bool.or_eq_false_iff, beq_eq_false_iff_ne, beq_eq_false_iff_ne, Ne, Ne, opcodeField_eq_opJal_iff,
    opcodeField_eq_opJalr_iff]
  push Not
  rfl

theorem mem_redirected_after {h : RunHistory} {s : State} {x : Nat} :
    x ∈ (h.after s).redirected ↔ x ∈ h.redirected ∨ s.taken = true ∧ x = wordIndex s.idex.pc := by
  cases ht : s.taken <;> simp [RunHistory.after, ht, or_comm]

/-- A redirect of one of the first `n + 1` cycles is one of the first `n`, or of the cycle reached after those. -/
theorem redirect_succ {s s1 : State} {n x : Nat} (hreach : runCycles n s = .next s1) :
    (∃ k u, k < n + 1 ∧ runCycles k s = .next u ∧ u.taken = true ∧ x = wordIndex u.idex.pc) ↔
      (∃ k u, k < n ∧ runCycles k s = .next u ∧ u.taken = true ∧ x = wordIndex u.idex.pc) ∨
        s1.taken = true ∧ x = wordIndex s1.idex.pc := by
  constructor
  · rintro ⟨k, u, hk, hu, htaken⟩
    rcases Nat.lt_succ_iff_lt_or_eq.1 hk with hk | rfl
    · exact .inl ⟨k, u, hk, hu, htaken⟩
    · cases hreach.symm.trans hu
      exact .inr htaken
  · rintro (⟨k, u, hk, hrest⟩ | htaken)
    · exact ⟨k, u, by omega, hrest⟩
    · exact ⟨n, s1, by omega, hreach, htaken⟩

theorem o1_atStop_iff (h : RunHistory) (s s' : State) : (ProgramObligations.atStop h s s').o1 = true ↔
    ∀ a, a = s.pc - 4#32 ∨ a = s.pc - 8#32 →
      isJumpAt s.imem a = false ∧ wordIndex a ∉ ((h.after s).after s').redirected := by
  simp [ProgramObligations.atStop]

theorem o2_atStop_iff (h : RunHistory) (s s' : State) :
    (ProgramObligations.atStop h s s').o2 = true ↔ h.stalled = false := by
  rw [ProgramObligations.atStop, Bool.not_eq_true']

theorem o3_atStop_iff (h : RunHistory) (s s' : State) : (ProgramObligations.atStop h s s').o3 = true ↔
    s.pc.toNat + 12 < 4 * s.params.imemWords := by
  rw [ProgramObligations.atStop, decide_eq_true_iff, wordIndex, BitVec.toNat_ushiftRight, Nat.shiftRight_eq_div_pow]
  omega

/-- Settles O56: the history at the stop cycle lists the redirects of the cycles before it and whether the last of them
stalled; the two cycles that the report adds are those up to t + 1. -/
theorem finishedRunReportsTheProgramObligations : Obligations.FinishedRunReportsTheProgramObligations := by
  intro p maxCycles image dmem s t z ob e hload hended
  obtain ⟨s', hload', hrun⟩ := runProgram_ended hended
  cases hload.symm.trans hload'
  obtain ⟨n, s1, s2, h1, -, rfl, hreach, hstep, hstop, rfl, rfl, -, hstalled, hredirected⟩ := runFrom_ended hrun
  obtain ⟨himem, hparams⟩ := runCycles_frame hreach
  obtain ⟨-, -, hs⟩ := loadRun_eq_some.1 hload
  have hp : s1.params = p := by rw [hparams, hs, boot_params]
  have hreach2 : runCycles (n + 1) s = .next s2 :=
    runCycles_add hreach ((runCycles_succ 0 s1 s2).2 ⟨s2, hstep, rfl⟩)
  have hmem : ∀ x, x ∈ ((h1.after s1).after s2).redirected ↔
      ∃ k u, k < n + 1 + 1 ∧ runCycles k s = .next u ∧ u.taken = true ∧ x = wordIndex u.idex.pc := fun x => by
    rw [mem_redirected_after, mem_redirected_after, hredirected, redirect_succ hreach2, redirect_succ hreach]
    simp [RunHistory.start]
  simp only [Nat.zero_add]
  refine ⟨?_, ?_, ?_⟩
  · rw [o1_atStop_iff, himem]
    refine forall₂_congr fun a _ => ?_
    rw [isJumpAt_eq_false_iff, hmem, and_assoc]
    refine and_congr_right' (and_congr_right' ?_)
    exact ⟨fun h k u hk hu ht he => h ⟨k, u, by omega, hu, ht, he.symm⟩,
      fun h ⟨k, u, hk, hu, ht, he⟩ => h k u (by omega) hu ht he.symm⟩
  · rw [o2_atStop_iff, ← Bool.not_eq_true, hstalled]
    refine Iff.trans ?_ forall_comm
    simp [RunHistory.start]
  · rw [o3_atStop_iff, hp]

end Sys2Proof.Machine
end

section
/-! Settles O4 (95_test_vectors.md section 2.1): one sample word per family. -/

namespace Sys2Proof

/-- Settles O4: each word is evaluated by the decoder. -/
theorem sampleWordsDecode : Obligations.SampleWordsDecode := by
  refine ⟨?sub, ?addi, ?lw, ?sw, ?bne, ?jal, ?jalr, ?lui, ?auipc, ?ecall⟩ <;> rfl

end Sys2Proof
end
